-- ==== Sys2Proof/Word.lean ====
section
/-! DEFINITION. The word types of the core: bytes, 16-bit words, 12-bit addresses, and the two index
types that are names rather than bits (register numbers, logical keys). -/

namespace Sys2Proof

/-- A memory byte, a general register or a timer (R8). -/
abbrev Byte := BitVec 8

/-- A 16-bit value: the program counter, the index register, a stack entry, an instruction word (R8). -/
abbrev Word := BitVec 16

/-- The 12-bit address field `NNN` (R101, R103). -/
abbrev Addr12 := BitVec 12

/-- The number of a general register V0–VF: a 4-bit field that selects, never computed with (R31). -/
abbrev Reg := Fin 16

/-- A logical keycode 0x0–0xF (R49). -/
abbrev Key := Fin 16

/-- The flag register VF is register 15 (R32). -/
abbrev VF : Reg := 15

end Sys2Proof
end

