-- ==== Sys2Proof/Syntax.lean ====
section
/-! DEFINITION. The instructions: one constructor for each row of the opcode map R108
(`spec/opcode_table.json`), each carrying the operand fields of its format (R102, R103). -/

namespace Sys2Proof

/-- The 31 instructions (R2, R108). `x` and `y` are the register fields X and Y, `kk` the byte
immediate, `nnn` the 12-bit address, `n` the sprite height. -/
inductive Instr where
  /-- 00E0 `CLS` -/
  | cls
  /-- 00EE `RET` -/
  | ret
  /-- 1nnn `JP nnn` -/
  | jp (nnn : Addr12)
  /-- 2nnn `CALL nnn` -/
  | call (nnn : Addr12)
  /-- 3xkk `SE Vx, kk` -/
  | seImm (x : Reg) (kk : Byte)
  /-- 4xkk `SNE Vx, kk` -/
  | sneImm (x : Reg) (kk : Byte)
  /-- 5xy0 `SE Vx, Vy` -/
  | seReg (x y : Reg)
  /-- 6xkk `LD Vx, kk` -/
  | ldImm (x : Reg) (kk : Byte)
  /-- 7xkk `ADD Vx, kk` -/
  | addImm (x : Reg) (kk : Byte)
  /-- 8xy0 `LD Vx, Vy` -/
  | ldReg (x y : Reg)
  /-- 8xy1 `OR Vx, Vy` -/
  | orReg (x y : Reg)
  /-- 8xy2 `AND Vx, Vy` -/
  | andReg (x y : Reg)
  /-- 8xy3 `XOR Vx, Vy` -/
  | xorReg (x y : Reg)
  /-- 8xy4 `ADD Vx, Vy` -/
  | addReg (x y : Reg)
  /-- 8xy5 `SUB Vx, Vy` -/
  | sub (x y : Reg)
  /-- 8xy6 `SHR Vx, Vy` -/
  | shr (x y : Reg)
  /-- 8xy7 `SUBN Vx, Vy` -/
  | subn (x y : Reg)
  /-- 8xyE `SHL Vx, Vy` -/
  | shl (x y : Reg)
  /-- 9xy0 `SNE Vx, Vy` -/
  | sneReg (x y : Reg)
  /-- Annn `LD I, nnn` -/
  | ldI (nnn : Addr12)
  /-- Dxyn `DRW Vx, Vy, n` -/
  | drw (x y : Reg) (n : Fin 16)
  /-- Ex9E `SKP Vx` -/
  | skp (x : Reg)
  /-- ExA1 `SKNP Vx` -/
  | sknp (x : Reg)
  /-- Fx07 `LD Vx, DT` -/
  | ldVxDt (x : Reg)
  /-- Fx15 `LD DT, Vx` -/
  | ldDtVx (x : Reg)
  /-- Fx18 `LD ST, Vx` -/
  | ldStVx (x : Reg)
  /-- Fx1E `ADD I, Vx` -/
  | addI (x : Reg)
  /-- Fx29 `LD F, Vx` -/
  | ldF (x : Reg)
  /-- Fx33 `LD B, Vx` -/
  | ldB (x : Reg)
  /-- Fx55 `LD [I], Vx` -/
  | store (x : Reg)
  /-- Fx65 `LD Vx, [I]` -/
  | load (x : Reg)
deriving DecidableEq, Repr

end Sys2Proof
end

