-- ==== Sys2Proof/WellFormed.lean ====
section
/-! DEFINITION. Well-formedness of what is written outside the machine: an instruction as a listing
gives it, a row of the opcode map with operand numbers. `Instr` itself is typed (a `Reg` is below 16,
a byte below 256, an address below 4096), so an ill-formed `Instr` cannot be built; the checks that a
listing needs (R114: operand spellings and their ranges) are made here, once, by `RawInstr.check`. -/

namespace Sys2Proof

/-- An unchecked instruction: the number of its row in R108 (1 to 31) and its operands in the order
the mnemonic lists them, as plain numbers. -/
structure RawInstr where
  row : Nat
  operands : List Nat
deriving DecidableEq, Repr

/-- Why a listing's instruction is ill-formed. -/
inductive FormError where
  /-- R108 has no such row -/
  | noSuchRow (row : Nat)
  /-- the row takes another number of operands -/
  | operandCount (row got : Nat)
  /-- a register is V0..VF (R114) -/
  | registerRange (v : Nat)
  /-- a byte immediate is 0x00..0xFF (R114) -/
  | byteRange (v : Nat)
  /-- an address is 0x000..0xFFF (R114) -/
  | addressRange (v : Nat)
  /-- a nibble is 0x0..0xF (R114) -/
  | nibbleRange (v : Nat)
deriving DecidableEq, Repr

namespace RawInstr

/-- A register operand. -/
def reg (v : Nat) : Except FormError Reg :=
  if h : v < 16 then .ok ⟨v, h⟩ else .error (.registerRange v)

/-- A byte immediate. -/
def byte (v : Nat) : Except FormError Byte :=
  if v < 256 then .ok (BitVec.ofNat 8 v) else .error (.byteRange v)

/-- A 12-bit address. -/
def address (v : Nat) : Except FormError Addr12 :=
  if v < 4096 then .ok (BitVec.ofNat 12 v) else .error (.addressRange v)

/-- The sprite height. -/
def nibble (v : Nat) : Except FormError (Fin 16) :=
  if h : v < 16 then .ok ⟨v, h⟩ else .error (.nibbleRange v)

/-- Format FIXED: no operand. -/
def fixed (i : Instr) (r : RawInstr) : Except FormError Instr :=
  match r.operands with
  | [] => .ok i
  | ops => .error (.operandCount r.row ops.length)

/-- Format NNN: an address. -/
def withNnn (f : Addr12 → Instr) (r : RawInstr) : Except FormError Instr :=
  match r.operands with
  | [a] => (address a).map f
  | ops => .error (.operandCount r.row ops.length)

/-- Format XKK: a register and a byte. -/
def withXkk (f : Reg → Byte → Instr) (r : RawInstr) : Except FormError Instr :=
  match r.operands with
  | [a, b] => (reg a).bind fun x => (byte b).map (f x)
  | ops => .error (.operandCount r.row ops.length)

/-- Format XYS: two registers. -/
def withXy (f : Reg → Reg → Instr) (r : RawInstr) : Except FormError Instr :=
  match r.operands with
  | [a, b] => (reg a).bind fun x => (reg b).map (f x)
  | ops => .error (.operandCount r.row ops.length)

/-- Format XYN: two registers and a nibble. -/
def withXyn (f : Reg → Reg → Fin 16 → Instr) (r : RawInstr) : Except FormError Instr :=
  match r.operands with
  | [a, b, c] => (reg a).bind fun x => (reg b).bind fun y => (nibble c).map (f x y)
  | ops => .error (.operandCount r.row ops.length)

/-- Format XSS: a register. -/
def withX (f : Reg → Instr) (r : RawInstr) : Except FormError Instr :=
  match r.operands with
  | [a] => (reg a).map f
  | ops => .error (.operandCount r.row ops.length)

/-- The check of a listing's instruction against R108 and R114. -/
def check (r : RawInstr) : Except FormError Instr :=
  match r.row with
  | 1 => fixed .cls r
  | 2 => fixed .ret r
  | 3 => withNnn .jp r
  | 4 => withNnn .call r
  | 5 => withXkk .seImm r
  | 6 => withXkk .sneImm r
  | 7 => withXy .seReg r
  | 8 => withXkk .ldImm r
  | 9 => withXkk .addImm r
  | 10 => withXy .ldReg r
  | 11 => withXy .orReg r
  | 12 => withXy .andReg r
  | 13 => withXy .xorReg r
  | 14 => withXy .addReg r
  | 15 => withXy .sub r
  | 16 => withXy .shr r
  | 17 => withXy .subn r
  | 18 => withXy .shl r
  | 19 => withXy .sneReg r
  | 20 => withNnn .ldI r
  | 21 => withXyn .drw r
  | 22 => withX .skp r
  | 23 => withX .sknp r
  | 24 => withX .ldVxDt r
  | 25 => withX .ldDtVx r
  | 26 => withX .ldStVx r
  | 27 => withX .addI r
  | 28 => withX .ldF r
  | 29 => withX .ldB r
  | 30 => withX .store r
  | 31 => withX .load r
  | n => .error (.noSuchRow n)

/-- Every check passes. -/
def wellFormed (r : RawInstr) : Bool :=
  match r.check with
  | .ok _ => true
  | .error _ => false

end RawInstr

/-- The row of R108 and the operands of an instruction, as a listing writes them. -/
def Instr.raw : Instr → RawInstr
  | .cls => ⟨1, []⟩
  | .ret => ⟨2, []⟩
  | .jp a => ⟨3, [a.toNat]⟩
  | .call a => ⟨4, [a.toNat]⟩
  | .seImm x k => ⟨5, [x.val, k.toNat]⟩
  | .sneImm x k => ⟨6, [x.val, k.toNat]⟩
  | .seReg x y => ⟨7, [x.val, y.val]⟩
  | .ldImm x k => ⟨8, [x.val, k.toNat]⟩
  | .addImm x k => ⟨9, [x.val, k.toNat]⟩
  | .ldReg x y => ⟨10, [x.val, y.val]⟩
  | .orReg x y => ⟨11, [x.val, y.val]⟩
  | .andReg x y => ⟨12, [x.val, y.val]⟩
  | .xorReg x y => ⟨13, [x.val, y.val]⟩
  | .addReg x y => ⟨14, [x.val, y.val]⟩
  | .sub x y => ⟨15, [x.val, y.val]⟩
  | .shr x y => ⟨16, [x.val, y.val]⟩
  | .subn x y => ⟨17, [x.val, y.val]⟩
  | .shl x y => ⟨18, [x.val, y.val]⟩
  | .sneReg x y => ⟨19, [x.val, y.val]⟩
  | .ldI a => ⟨20, [a.toNat]⟩
  | .drw x y n => ⟨21, [x.val, y.val, n.val]⟩
  | .skp x => ⟨22, [x.val]⟩
  | .sknp x => ⟨23, [x.val]⟩
  | .ldVxDt x => ⟨24, [x.val]⟩
  | .ldDtVx x => ⟨25, [x.val]⟩
  | .ldStVx x => ⟨26, [x.val]⟩
  | .addI x => ⟨27, [x.val]⟩
  | .ldF x => ⟨28, [x.val]⟩
  | .ldB x => ⟨29, [x.val]⟩
  | .store x => ⟨30, [x.val]⟩
  | .load x => ⟨31, [x.val]⟩

end Sys2Proof
end

