-- ==== Sys2Proof/Decode.lean ====
section
/-! DEFINITION. The decoder (R109), total on every word and on any bytes, rejecting by name; after it
the encoder, written from the same fields (R101, R102, R108), and the opcode map R108 as data. -/

namespace Sys2Proof

/-! ### The fields of a word (R101) -/

namespace Field

/-- `w[15:12]`, the leading nibble. -/
def op (w : Word) : BitVec 4 := w.extractLsb 15 12
/-- `X = w[11:8]`. -/
def x (w : Word) : Reg := (w.extractLsb 11 8).toFin
/-- `Y = w[7:4]`. -/
def y (w : Word) : Reg := (w.extractLsb 7 4).toFin
/-- `N = w[3:0]`. -/
def n (w : Word) : Fin 16 := (w.extractLsb 3 0).toFin
/-- `KK = w[7:0]`. -/
def kk (w : Word) : Byte := w.extractLsb 7 0
/-- `NNN = w[11:0]`. -/
def nnn (w : Word) : Addr12 := w.extractLsb 11 0

end Field

/-- Why bytes do not decode. -/
inductive DecodeError where
  /-- `DecodeFailure(w)`: no row of R108 matches the word (R109, R110) -/
  | noRow (w : Word)
  /-- fewer than two bytes: no instruction word -/
  | truncated
deriving DecidableEq, Repr

/-! ### Decoding (R109) -/

/-- Leading nibble 0x0: the two whole words 0x00E0 and 0x00EE (R104, R111). -/
def decode0 (w : Word) : Except DecodeError Instr :=
  if w = 0x00E0#16 then .ok .cls else if w = 0x00EE#16 then .ok .ret else .error (.noRow w)

/-- Leading nibble 0x8: the trailing nibble selects the operation (R105). -/
def decode8 (w : Word) : Except DecodeError Instr :=
  match (Field.n w).val with
  | 0x0 => .ok (.ldReg (Field.x w) (Field.y w))
  | 0x1 => .ok (.orReg (Field.x w) (Field.y w))
  | 0x2 => .ok (.andReg (Field.x w) (Field.y w))
  | 0x3 => .ok (.xorReg (Field.x w) (Field.y w))
  | 0x4 => .ok (.addReg (Field.x w) (Field.y w))
  | 0x5 => .ok (.sub (Field.x w) (Field.y w))
  | 0x6 => .ok (.shr (Field.x w) (Field.y w))
  | 0x7 => .ok (.subn (Field.x w) (Field.y w))
  | 0xE => .ok (.shl (Field.x w) (Field.y w))
  | _ => .error (.noRow w)

/-- Leading nibble 0xE: the trailing byte selects the key test (R106). -/
def decodeE (w : Word) : Except DecodeError Instr :=
  if Field.kk w = 0x9E#8 then .ok (.skp (Field.x w))
  else if Field.kk w = 0xA1#8 then .ok (.sknp (Field.x w))
  else .error (.noRow w)

/-- Leading nibble 0xF: the trailing byte selects the operation (R106). -/
def decodeF (w : Word) : Except DecodeError Instr :=
  if Field.kk w = 0x07#8 then .ok (.ldVxDt (Field.x w))
  else if Field.kk w = 0x15#8 then .ok (.ldDtVx (Field.x w))
  else if Field.kk w = 0x18#8 then .ok (.ldStVx (Field.x w))
  else if Field.kk w = 0x1E#8 then .ok (.addI (Field.x w))
  else if Field.kk w = 0x29#8 then .ok (.ldF (Field.x w))
  else if Field.kk w = 0x33#8 then .ok (.ldB (Field.x w))
  else if Field.kk w = 0x55#8 then .ok (.store (Field.x w))
  else if Field.kk w = 0x65#8 then .ok (.load (Field.x w))
  else .error (.noRow w)

/-- The decode function on a word: total and pure (R109). -/
def decode (w : Word) : Except DecodeError Instr :=
  match (Field.op w).toNat with
  | 0x0 => decode0 w
  | 0x1 => .ok (.jp (Field.nnn w))
  | 0x2 => .ok (.call (Field.nnn w))
  | 0x3 => .ok (.seImm (Field.x w) (Field.kk w))
  | 0x4 => .ok (.sneImm (Field.x w) (Field.kk w))
  | 0x5 => if Field.n w = 0 then .ok (.seReg (Field.x w) (Field.y w)) else .error (.noRow w)
  | 0x6 => .ok (.ldImm (Field.x w) (Field.kk w))
  | 0x7 => .ok (.addImm (Field.x w) (Field.kk w))
  | 0x8 => decode8 w
  | 0x9 => if Field.n w = 0 then .ok (.sneReg (Field.x w) (Field.y w)) else .error (.noRow w)
  | 0xA => .ok (.ldI (Field.nnn w))
  | 0xD => .ok (.drw (Field.x w) (Field.y w) (Field.n w))
  | 0xE => decodeE w
  | 0xF => decodeF w
  | _ => .error (.noRow w)

/-- The word of two bytes, the first the high byte (R76; log entry 11). -/
def wordOfBytes (hi lo : Byte) : Word := hi ++ lo

/-- Decode the instruction at the head of a byte sequence and answer the bytes after it: every
instruction is one 16-bit word (R100). -/
def decodeBytes : List Byte → Except DecodeError (Instr × List Byte)
  | hi :: lo :: rest =>
    match decode (wordOfBytes hi lo) with
    | .ok i => .ok (i, rest)
    | .error e => .error e
  | _ => .error .truncated

/-! ### Encoding (R102, R108) -/

/-- Format NNN. -/
def packNnn (op : BitVec 4) (nnn : Addr12) : Word := op ++ nnn
/-- Formats XKK and XSS: `kk` is the immediate or the fixed sub-opcode byte. -/
def packXkk (op : BitVec 4) (x : Reg) (kk : Byte) : Word := op ++ BitVec.ofFin (w := 4) x ++ kk
/-- Formats XYN and XYS: `n` is the height or the fixed sub-opcode nibble. -/
def packXyn (op : BitVec 4) (x y n : Fin 16) : Word :=
  op ++ BitVec.ofFin (w := 4) x ++ BitVec.ofFin (w := 4) y ++ BitVec.ofFin (w := 4) n

/-- The word of an instruction: the `match` of its row with the fields inserted (R108, R114). -/
def encode : Instr → Word
  | .cls => 0x00E0#16
  | .ret => 0x00EE#16
  | .jp a => packNnn 0x1#4 a
  | .call a => packNnn 0x2#4 a
  | .seImm x k => packXkk 0x3#4 x k
  | .sneImm x k => packXkk 0x4#4 x k
  | .seReg x y => packXyn 0x5#4 x y 0x0
  | .ldImm x k => packXkk 0x6#4 x k
  | .addImm x k => packXkk 0x7#4 x k
  | .ldReg x y => packXyn 0x8#4 x y 0x0
  | .orReg x y => packXyn 0x8#4 x y 0x1
  | .andReg x y => packXyn 0x8#4 x y 0x2
  | .xorReg x y => packXyn 0x8#4 x y 0x3
  | .addReg x y => packXyn 0x8#4 x y 0x4
  | .sub x y => packXyn 0x8#4 x y 0x5
  | .shr x y => packXyn 0x8#4 x y 0x6
  | .subn x y => packXyn 0x8#4 x y 0x7
  | .shl x y => packXyn 0x8#4 x y 0xE
  | .sneReg x y => packXyn 0x9#4 x y 0x0
  | .ldI a => packNnn 0xA#4 a
  | .drw x y n => packXyn 0xD#4 x y n
  | .skp x => packXkk 0xE#4 x 0x9E#8
  | .sknp x => packXkk 0xE#4 x 0xA1#8
  | .ldVxDt x => packXkk 0xF#4 x 0x07#8
  | .ldDtVx x => packXkk 0xF#4 x 0x15#8
  | .ldStVx x => packXkk 0xF#4 x 0x18#8
  | .addI x => packXkk 0xF#4 x 0x1E#8
  | .ldF x => packXkk 0xF#4 x 0x29#8
  | .ldB x => packXkk 0xF#4 x 0x33#8
  | .store x => packXkk 0xF#4 x 0x55#8
  | .load x => packXkk 0xF#4 x 0x65#8

/-- The high byte of a word, `w[15:8]`. -/
def highByte (w : Word) : Byte := w.extractLsb 15 8
/-- The low byte of a word, `w[7:0]`. -/
def lowByte (w : Word) : Byte := w.extractLsb 7 0

/-- The bytes of a word as they lie in memory, the high byte at the lower address (R76; log entry 11). -/
def bytesOfWord (w : Word) : List Byte := [highByte w, lowByte w]

/-- The bytes of an instruction as they lie in memory. -/
def encodeBytes (i : Instr) : List Byte := bytesOfWord (encode i)

/-! ### The opcode map R108 as data -/

/-- One row of R108. -/
structure OpcodeRow where
  number : Nat
  pattern : Word
  mask : Word
  mnemonic : String
deriving DecidableEq, Repr

/-- Rows 1 to 9. -/
def opcodeMapLow : List OpcodeRow :=
  [ ⟨1, 0x00E0#16, 0xFFFF#16, "CLS"⟩, ⟨2, 0x00EE#16, 0xFFFF#16, "RET"⟩,
    ⟨3, 0x1000#16, 0xF000#16, "JP nnn"⟩, ⟨4, 0x2000#16, 0xF000#16, "CALL nnn"⟩,
    ⟨5, 0x3000#16, 0xF000#16, "SE Vx, kk"⟩, ⟨6, 0x4000#16, 0xF000#16, "SNE Vx, kk"⟩,
    ⟨7, 0x5000#16, 0xF00F#16, "SE Vx, Vy"⟩, ⟨8, 0x6000#16, 0xF000#16, "LD Vx, kk"⟩,
    ⟨9, 0x7000#16, 0xF000#16, "ADD Vx, kk"⟩ ]

/-- Rows 10 to 21. -/
def opcodeMapMid : List OpcodeRow :=
  [ ⟨10, 0x8000#16, 0xF00F#16, "LD Vx, Vy"⟩, ⟨11, 0x8001#16, 0xF00F#16, "OR Vx, Vy"⟩,
    ⟨12, 0x8002#16, 0xF00F#16, "AND Vx, Vy"⟩, ⟨13, 0x8003#16, 0xF00F#16, "XOR Vx, Vy"⟩,
    ⟨14, 0x8004#16, 0xF00F#16, "ADD Vx, Vy"⟩, ⟨15, 0x8005#16, 0xF00F#16, "SUB Vx, Vy"⟩,
    ⟨16, 0x8006#16, 0xF00F#16, "SHR Vx, Vy"⟩, ⟨17, 0x8007#16, 0xF00F#16, "SUBN Vx, Vy"⟩,
    ⟨18, 0x800E#16, 0xF00F#16, "SHL Vx, Vy"⟩, ⟨19, 0x9000#16, 0xF00F#16, "SNE Vx, Vy"⟩,
    ⟨20, 0xA000#16, 0xF000#16, "LD I, nnn"⟩, ⟨21, 0xD000#16, 0xF000#16, "DRW Vx, Vy, n"⟩ ]

/-- Rows 22 to 31. -/
def opcodeMapHigh : List OpcodeRow :=
  [ ⟨22, 0xE09E#16, 0xF0FF#16, "SKP Vx"⟩, ⟨23, 0xE0A1#16, 0xF0FF#16, "SKNP Vx"⟩,
    ⟨24, 0xF007#16, 0xF0FF#16, "LD Vx, DT"⟩, ⟨25, 0xF015#16, 0xF0FF#16, "LD DT, Vx"⟩,
    ⟨26, 0xF018#16, 0xF0FF#16, "LD ST, Vx"⟩, ⟨27, 0xF01E#16, 0xF0FF#16, "ADD I, Vx"⟩,
    ⟨28, 0xF029#16, 0xF0FF#16, "LD F, Vx"⟩, ⟨29, 0xF033#16, 0xF0FF#16, "LD B, Vx"⟩,
    ⟨30, 0xF055#16, 0xF0FF#16, "LD [I], Vx"⟩, ⟨31, 0xF065#16, 0xF0FF#16, "LD Vx, [I]"⟩ ]

/-- The opcode map R108. -/
def opcodeMap : List OpcodeRow := opcodeMapLow ++ opcodeMapMid ++ opcodeMapHigh

/-- A word is the row's instruction iff `w AND mask = match` (R108). -/
def OpcodeRow.matchesWord (r : OpcodeRow) (w : Word) : Bool := w &&& r.mask == r.pattern

/-! ### The host's numbering of an instruction's bits -/

/-- The first word of an instruction whose `nbits` bits are `w`, bit 0 the least significant bit of the
first word and every bit above `nbits` zero. Every instruction has one word (R100). -/
def tableWord (nbits w : Nat) : Word := BitVec.ofNat 16 (w % 2 ^ nbits)

/-- The instruction the decoder reads from the bytes of that word, laid out as memory holds them. -/
def decodeTableWord (nbits w : Nat) : Option Instr :=
  match decodeBytes (bytesOfWord (tableWord nbits w)) with
  | .ok (i, _) => some i
  | .error _ => none

end Sys2Proof
end

