-- ==== Sys2Proof/Config.lean ====
section
/-! DEFINITION. The sizes that are fixed constants (R8) and the type of the construction-time
configuration `cfg` (R9). `cfg` is chosen when a core is constructed and then held by the core
(R42, R44), so a value of this type is a field of `Machine.State`, and every statement about a state
holds for every configuration. The spec leaves no value free, so there is no opaque constant here. -/

namespace Sys2Proof.Config

/-- `MEM_SIZE` (R8). -/
abbrev memSize : Nat := 4096
/-- `FONT_BASE` (R8). -/
abbrev fontBase : Nat := 0x050
/-- `ROM_BASE` (R8). -/
abbrev romBase : Nat := 0x200
/-- `ROM_MAX` (R8). -/
abbrev romMax : Nat := 3584
/-- `STACK_DEPTH` (R8; the spec's decision D6). -/
abbrev stackDepth : Nat := 16
/-- `FB_W` (R8). -/
abbrev fbWidth : Nat := 64
/-- `FB_H` (R8). -/
abbrev fbHeight : Nat := 32
/-- `PC_RESET` (R8). -/
abbrev pcReset : Word := 0x200#16

end Sys2Proof.Config

namespace Sys2Proof

/-- `cfg.bcd_mode` (R9): how many digits Fx33 writes (R213). -/
inductive BcdMode where
  /-- always hundreds, tens and ones -/
  | fixed3
  /-- the digits without leading zeros, none for 0 -/
  | baseline
deriving DecidableEq, Repr

/-- One glyph: five rows, row 0 first (R46). -/
abbrev Glyph := Vector Byte 5

/-- The 16 glyphs, 80 bytes (R46). -/
abbrev Font := Vector Glyph 16

/-- The construction-time configuration `cfg` (R9). It is typed, so no malformed value exists
(`93_implementation_defined.md` row 15). -/
structure Cfg where
  /-- `use_copy_shift`: the shifts take VY (R187, R189); no default in the spec (D22) -/
  useCopyShift : Bool
  /-- `sub_flag_strict`: the subtract flag is strict (R186, R188) -/
  subFlagStrict : Bool
  /-- `bcd_mode` (R213) -/
  bcdMode : BcdMode
  /-- `index_overflow_flag`: Fx1E sets VF on overflow (R211) -/
  indexOverflowFlag : Bool
  /-- `font` (R46) -/
  font : Font
deriving DecidableEq, Repr

end Sys2Proof
end

