-- ==== Sys2Proof/Machine/Font.lean ====
section
/-! DEFINITION. The default font of R47 and the default configuration of R9. The spec marks the font's
bytes as general knowledge and takes them as the default of the parameter `cfg.font` (D18; log entry 4). -/

namespace Sys2Proof.Machine

/-- The default `cfg.font`, glyphs 0 to 7 (R47). -/
def fontLow : Vector Glyph 8 :=
  #v[ #v[0xF0, 0x90, 0x90, 0x90, 0xF0], #v[0x20, 0x60, 0x20, 0x20, 0x70],
      #v[0xF0, 0x10, 0xF0, 0x80, 0xF0], #v[0xF0, 0x10, 0xF0, 0x10, 0xF0],
      #v[0x90, 0x90, 0xF0, 0x10, 0x10], #v[0xF0, 0x80, 0xF0, 0x10, 0xF0],
      #v[0xF0, 0x80, 0xF0, 0x90, 0xF0], #v[0xF0, 0x10, 0x20, 0x40, 0x40] ]

/-- The default `cfg.font`, glyphs 8 to F (R47). -/
def fontHigh : Vector Glyph 8 :=
  #v[ #v[0xF0, 0x90, 0xF0, 0x90, 0xF0], #v[0xF0, 0x90, 0xF0, 0x10, 0xF0],
      #v[0xF0, 0x90, 0xF0, 0x90, 0x90], #v[0xE0, 0x90, 0xE0, 0x90, 0xE0],
      #v[0xF0, 0x80, 0x80, 0x80, 0xF0], #v[0xE0, 0x90, 0x90, 0x90, 0xE0],
      #v[0xF0, 0x80, 0xF0, 0x80, 0xF0], #v[0xF0, 0x80, 0xF0, 0x80, 0x80] ]

/-- The default `cfg.font` (R47). -/
def defaultFont : Font := fontLow ++ fontHigh

/-- The 80 bytes of a font in address order: glyph g, row k is byte 5·g + k (R46). -/
def fontBytes (f : Font) : List Byte := (f.toList.map Vector.toList).flatten

/-- The configuration of `State.reset`: the defaults of R9; `use_copy_shift` has no default in the spec
(D22) and is false here (DESIGN CHOICE, log entry 2). -/
def defaultCfg : Cfg where
  useCopyShift := false
  subFlagStrict := false
  bcdMode := .fixed3
  indexOverflowFlag := true
  font := defaultFont

end Sys2Proof.Machine
end

