-- ==== Sys2Proof/Machine/State.lean ====
section
/-! DEFINITION. The state of the core (R30) as plain data, the reasons a step can stop, and the state
after reset (R330). -/

namespace Sys2Proof.Machine

/-- The 4096-byte memory (R45, R70) as the addresses whose byte differs from `Memory.unlisted`, in
strictly rising order (`Memory.wf`; log entry 4). -/
abbrev Memory := List Host.Cell

/-- The frame buffer `fb[c][r]`, column first (R48). -/
abbrev Display := Vector (Vector Bool 32) 64

/-- The fault kinds (R281). -/
inductive FaultKind where
  /-- the fetched word matches no row of R108 -/
  | decodeFailure
  /-- 00EE with an empty call stack -/
  | stackUnderflow
  /-- 2nnn with 16 entries on the call stack -/
  | stackOverflow
  /-- a memory access at an address ≥ 4096 -/
  | addressOutOfRange
  /-- Ex9E or ExA1 with VX > 0x0F -/
  | keyOutOfRange
deriving DecidableEq, Repr

/-- The fault record of R43. `word` is absent when the fetch itself faulted; `info` is the first
out-of-range address or the key value, absent otherwise (log entry 7). -/
structure FaultRecord where
  kind : FaultKind
  /-- the field `at`: the address of the faulting instruction -/
  addr : Word
  word : Option Word
  info : Option Word
deriving DecidableEq, Repr

/-- The `status` register (R43). -/
inductive Status where
  | running
  | halted (record : FaultRecord)
deriving DecidableEq, Repr

/-- The host operations that change the core (R300). The operations that only read are functions of
the state (`Machine/HostOps.lean`). -/
inductive HostOp where
  /-- `Construct(rom, cfg)` (R301) -/
  | construct (rom : List Byte) (cfg : Cfg)
  /-- `Step` (R302) -/
  | step
  /-- `TickTimers` (R303) -/
  | tickTimers
  /-- `KeyDown(k)` (R304) -/
  | keyDown (k : Key)
  /-- `KeyUp(k)` (R305) -/
  | keyUp (k : Key)
deriving DecidableEq, Repr

/-- Why the machine stops with a fault. -/
inductive Fault where
  /-- Raised by `step` alone, for a Step on a core that an earlier Step halted: the Step changes nothing
  and reports the same record again (R123). The Step that first faults answers a NEXT state whose status
  is `halted record` (log entry 5). Safe: the spec's own stop. -/
  | halted (record : FaultRecord)
deriving DecidableEq, Repr

/-- Why the machine answers nothing. -/
inductive Refusal where
  /-- Raised only by an arm of `exec` that has no meaning yet; no arm is left so. Safe. -/
  | notModelled (mnemonic : String)
  /-- Raised by `Construct` with a ROM longer than 3584 bytes: no core is built (R331). Safe: the spec's
  own refusal (`93_implementation_defined.md` row 14). -/
  | romTooLarge (length : Nat)
deriving DecidableEq, Repr

/-- The state of the core: the tuple of R30 and the configuration it holds for its lifetime (R42, R44). -/
structure State where
  /-- memory (R45) -/
  mem : Memory
  /-- the general registers V0–VF (R31) -/
  x : Vector Byte 16
  /-- the index register (R38) -/
  I : Word
  /-- the program counter (R34) -/
  pc : Word
  /-- the call stack, the most recently pushed entry first (R41; log entry 10) -/
  stack : List Word
  /-- the delay timer (R39) -/
  DT : Byte
  /-- the sound timer (R40) -/
  ST : Byte
  /-- the frame buffer (R48) -/
  fb : Display
  /-- the keypad state, true = down (R49) -/
  keys : Vector Bool 16
  /-- the status register (R43) -/
  status : Status
  /-- the construction-time configuration (R9, R44; log entry 2) -/
  cfg : Cfg
  /-- the model's own field: the host's requests not served yet, oldest first (R310; log entry 8) -/
  pending : List HostOp
deriving DecidableEq, Repr

/-- The outcome of a step or of a meaning. -/
abbrev Result := Host.Outcome State Fault Refusal

/-- The state right after `Construct` with a ROM of length 0 and the default configuration (R330, R331:
a ROM of length 0 is accepted; log entries 1, 2 and 3). No memory byte is listed: the font and the
zeros are what an unlisted address reads as. -/
def State.reset : State where
  mem := []
  x := Vector.replicate 16 0
  I := 0
  pc := Config.pcReset
  stack := []
  DT := 0
  ST := 0
  fb := Vector.replicate 64 (Vector.replicate 32 false)
  keys := Vector.replicate 16 false
  status := .running
  cfg := defaultCfg
  pending := []

end Sys2Proof.Machine
end

