-- ==== Sys2Proof/Machine/Ops.lean ====
section
/-! DEFINITION. The named operations every meaning is made of: memory, the register file and the other
registers, the call stack, the frame buffer, the fetch, and taking a fault. -/

namespace Sys2Proof.Machine

/-! ### Memory (R45, R70–R80) -/

namespace Memory

/-- What an address that the list does not name reads as: the contents of R73 with the default font,
the font at 0x050–0x09F and 0 elsewhere (log entry 4). `construct` lists every byte of another font and
of the ROM that differs from it. -/
def unlisted (a : Nat) : Byte :=
  if Config.fontBase ≤ a then (fontBytes defaultFont).getD (a - Config.fontBase) 0 else 0

/-- The byte at an address. -/
def read : Memory → Nat → Byte
  | [], a => unlisted a
  | (b, v) :: m, a => if a = b then v else read m a

/-- The memory with the byte at one address replaced, in canonical form. -/
def write : Memory → Nat → Byte → Memory
  | [], a, v => if v = unlisted a then [] else [(a, v)]
  | (b, u) :: m, a, v =>
    if a < b then (if v = unlisted a then (b, u) :: m else (a, v) :: (b, u) :: m)
    else if a = b then (if v = unlisted a then m else (a, v) :: m)
    else (b, u) :: write m a v

/-- The cells lie at addresses `lo` or above, strictly rising, below 4096, and none holds what an
unlisted address reads as. -/
def wfFrom : Nat → Memory → Bool
  | _, [] => true
  | lo, (a, v) :: m => decide (lo ≤ a) && decide (a < Config.memSize) && v != unlisted a && wfFrom (a + 1) m

/-- The canonical form: equal memories are equal lists. -/
def wf (m : Memory) : Bool := wfFrom 0 m

/-- `MemRead(addr, 1)`: the address is an exact natural number; at 4096 and above the access does not
happen and the address is the error (R72). -/
def readChecked (m : Memory) (a : Nat) : Except Nat Byte :=
  if a < Config.memSize then .ok (m.read a) else .error a

/-- `MemWrite(addr, 1, v)` (R72). -/
def writeChecked (m : Memory) (a : Nat) (v : Byte) : Except Nat Memory :=
  if a < Config.memSize then .ok (m.write a v) else .error a

/-- The `n` bytes from `a` up, in ascending order; the first address ≥ 4096 is the error (R77, R284). -/
def readBlock (m : Memory) (a : Nat) : Nat → Except Nat (List Byte)
  | 0 => .ok []
  | n + 1 =>
    match m.readChecked a with
    | .error e => .error e
    | .ok b =>
      match readBlock m (a + 1) n with
      | .error e => .error e
      | .ok bs => .ok (b :: bs)

/-- Write bytes from `a` up, in ascending order; the first address ≥ 4096 is the error, and then no
memory is answered, so no byte is written (R13, R77, R284). -/
def writeBlock (m : Memory) (a : Nat) : List Byte → Except Nat Memory
  | [] => .ok m
  | b :: bs =>
    match m.writeChecked a b with
    | .error e => .error e
    | .ok m' => writeBlock m' (a + 1) bs

/-- Place bytes from `a` up without a range check: the construction writes of the font and of a ROM
whose length is already checked (R71, R330). -/
def place (m : Memory) (a : Nat) : List Byte → Memory
  | [] => m
  | b :: bs => place (m.write a b) (a + 1) bs

end Memory

/-! ### Registers (R31–R40) -/

namespace State

/-- `x[i]` (R12). -/
def reg (s : State) (i : Reg) : Byte := s.x[i]

/-- `x[i] <- v`: no register is hardwired (R31). -/
def setReg (s : State) (i : Reg) (v : Byte) : State := { s with x := s.x.set i v }

/-- Replace the whole register file. -/
def setRegs (s : State) (v : Vector Byte 16) : State := { s with x := v }

/-- `I <- v`: any 16-bit value (R42). -/
def setI (s : State) (v : Word) : State := { s with I := v }

/-- `pc <- v`. -/
def setPc (s : State) (v : Word) : State := { s with pc := v }

/-- `DT <- v` (R42). -/
def setDT (s : State) (v : Byte) : State := { s with DT := v }

/-- `ST <- v` (R42). -/
def setST (s : State) (v : Byte) : State := { s with ST := v }

/-- Replace the call stack. -/
def setStack (s : State) (v : List Word) : State := { s with stack := v }

/-- Replace the memory. -/
def setMem (s : State) (m : Memory) : State := { s with mem := m }

/-- Replace the frame buffer. -/
def setFb (s : State) (d : Display) : State := { s with fb := d }

/-- Replace the keypad state. -/
def setKeys (s : State) (v : Vector Bool 16) : State := { s with keys := v }

/-- Replace the status register. -/
def setStatus (s : State) (v : Status) : State := { s with status := v }

/-- Replace the host's requests. -/
def setPending (s : State) (v : List HostOp) : State := { s with pending := v }

/-- `SP`, the depth of the call stack (R41). -/
def sp (s : State) : Nat := s.stack.length

/-- The fetch's increment of pc, modulo 2^16 (R36, R121). -/
def advance (s : State) : State := s.setPc (s.pc + 2)

/-- `skip` (R140). -/
def skip (s : State) : State := s.setPc (s.pc + 2)

/-- `skip` when the condition holds. -/
def skipIf (s : State) (c : Bool) : State := if c then s.skip else s

end State

/-- `x[j] <- bs[0]; x[j+1] <- bs[1]; …`: the register writes of a block load (R215). -/
def loadRegs (v : Vector Byte 16) (j : Nat) : List Byte → Vector Byte 16
  | [] => v
  | b :: bs => loadRegs (v.setIfInBounds j b) (j + 1) bs

/-! ### The frame buffer (R48, R240, R242) -/

namespace Display

/-- `fb[c][r]`; outside the grid no cell exists and none is ever asked for (R240; log entry 18). -/
def cell (d : Display) (c r : Nat) : Bool :=
  match d[c]? with
  | some column => (column[r]?).getD false
  | none => false

/-- `fb[c][r] <- v`. -/
def setCell (d : Display) (c r : Nat) (v : Bool) : Display :=
  match d[c]? with
  | some column => d.setIfInBounds c (column.setIfInBounds r v)
  | none => d

/-- Every cell unlit (R241). -/
def blank : Display := Vector.replicate 64 (Vector.replicate 32 false)

/-- One sprite bit on one cell: a set bit over a lit cell clears it and sets the flag, over an unlit
cell lights it; a clear bit changes nothing (R242). -/
def plot (acc : Display × Bool) (c r : Nat) (bit : Bool) : Display × Bool :=
  if bit then
    (if acc.1.cell c r then (acc.1.setCell c r false, true) else (acc.1.setCell c r true, acc.2))
  else acc

/-- One sprite row: `cols` bits of `b`, the most significant first, from column `x0` of row `y` (R242). -/
def drawRow (acc : Display × Bool) (x0 y : Nat) (b : Byte) (cols : Nat) : Display × Bool :=
  (List.range cols).foldl (fun a c => plot a (x0 + c) y (b.getLsbD (7 - c))) acc

/-- The sprite rows from row `y` down (R242). -/
def drawRows (acc : Display × Bool) (x0 y cols : Nat) : List Byte → Display × Bool
  | [] => acc
  | b :: bs => drawRows (drawRow acc x0 y b cols) x0 (y + 1) cols bs

end Display

/-! ### Fetch (R76) -/

/-- The instruction word at pc, the byte at pc high and read first; pc + 1 is exact (R76, R284). -/
def fetch (s : State) : Except Nat Word :=
  match s.mem.readChecked s.pc.toNat with
  | .error a => .error a
  | .ok hi =>
    match s.mem.readChecked (s.pc.toNat + 1) with
    | .error a => .error a
    | .ok lo => .ok (wordOfBytes hi lo)

/-! ### Taking a fault (R282, R283)

The core has no handler and no return from a fault (R280, R286), so this is the whole of it. -/

/-- `raise` on the state that the raising phase started from: the phase's writes are discarded and the
status register takes the record (R282). -/
def State.raise (s : State) (kind : FaultKind) (addr : Word) (word info : Option Word) : State :=
  s.setStatus (.halted ⟨kind, addr, word, info⟩)

/-- `raise` in the execute phase of `i`, entered with pc = a + 2 (R34): the record's address is
a = pc − 2 and its word is the one word that decodes to `i` (R43, R121; log entry 6). -/
def raiseIn (i : Instr) (kind : FaultKind) (info : Option Word) (s : State) : Result :=
  .next (s.raise kind (s.pc - 2) (some (encode i)) info)

/-- The execute phase of `i` goes on with the result of its memory accesses, or raises
`AddressOutOfRange` with the first address at 4096 or above (R72, R281). -/
def afterAccess (i : Instr) (s : State) (r : Except Nat α) (k : α → Result) : Result :=
  match r with
  | .ok v => k v
  | .error a => raiseIn i .addressOutOfRange (some (BitVec.ofNat 16 a)) s

/-- The fetch raised: nothing changes but the status (R120, R283). -/
def raiseFetch (a : Nat) (s : State) : Result :=
  .next (s.raise .addressOutOfRange s.pc none (some (BitVec.ofNat 16 a)))

/-- The decode raised: the fetch of `w` is complete, so pc = a + 2 (R110, R121). -/
def raiseDecode (w : Word) (s : State) : Result :=
  .next (s.advance.raise .decodeFailure s.pc (some w) none)

end Sys2Proof.Machine
end

