-- ==== Sys2Proof/Machine/Flags.lean ====
section
/-! DEFINITION. Every flag the spec computes, each from the operands alone (R180, R191). VF holds 1 or
0 (R185, R186). -/

namespace Sys2Proof.Machine.Flags

/-- A flag as the value of VF. -/
def value (b : Bool) : Byte := if b then 1 else 0

/-- The carry of 8xy4: the exact sum exceeds 255 (R185). -/
def carry (a b : Byte) : Bool := decide (a.toNat + b.toNat > 255)

/-- The NOT-borrow flag of 8xy5 and 8xy7 for minuend `a` and subtrahend `b`: `≥`, or `>` when
`sub_flag_strict` (R186, R188). -/
def notBorrow (strict : Bool) (a b : Byte) : Bool :=
  if strict then decide (a.toNat > b.toNat) else decide (a.toNat ≥ b.toNat)

/-- The bit that a right shift by one moves out, bit 0 (R187). -/
def outRight (v : Byte) : Bool := v.getLsbD 0

/-- The bit that a left shift by one moves out, bit 7 (R189). -/
def outLeft (v : Byte) : Bool := v.getLsbD 7

/-- The overflow of Fx1E: the flag is enabled and the 16-bit sum is 4096 or more (R211). -/
def indexOverflow (enabled : Bool) (sum : Word) : Bool := enabled && decide (4096 ≤ sum.toNat)

end Sys2Proof.Machine.Flags
end

