-- ==== Sys2Proof/Machine/Operands.lean ====
section
/-! DEFINITION. Operand forms (R103, R216): how a field of an instruction becomes the value or the
address an instruction works with. -/

namespace Sys2Proof.Machine

/-- `zext_16(NNN)`: an address field as a pc or I value (R103). -/
def target (nnn : Addr12) : Word := nnn.setWidth 16

/-- The operand of a shift: VY when `use_copy_shift`, otherwise VX (R187, R189). -/
def shiftOperand (s : State) (x y : Reg) : Byte := if s.cfg.useCopyShift then s.reg y else s.reg x

/-- V0..VX, the inclusive register range of Fx55, as bytes in order (R103, R214). -/
def regRange (s : State) (x : Reg) : List Byte := s.x.toList.take (x.val + 1)

/-- The key number in VX, absent when VX is above 0x0F (R260). -/
def keyOf (v : Byte) : Option Key := if h : v.toNat < 16 then some ⟨v.toNat, h⟩ else none

/-- The address of the glyph of the low nibble of `v`: 0x050 + 5 · (v AND 0x0F) (R212). -/
def glyphAddress (v : Byte) : Word := BitVec.ofNat 16 (Config.fontBase + 5 * (v &&& 0x0F#8).toNat)

/-- The decimal digits of a byte, hundreds, tens, ones (R213). -/
def digits3 (v : Byte) : List Byte :=
  [BitVec.ofNat 8 (v.toNat / 100), BitVec.ofNat 8 (v.toNat / 10 % 10), BitVec.ofNat 8 (v.toNat % 10)]

/-- The decimal digits of a byte without leading zeros, none for 0 (R213, mode Baseline). -/
def digitsBaseline (v : Byte) : List Byte :=
  if v.toNat = 0 then []
  else if v.toNat < 10 then (digits3 v).drop 2
  else if v.toNat < 100 then (digits3 v).drop 1
  else digits3 v

/-- The bytes Fx33 writes from I up (R213). -/
def bcdBytes (mode : BcdMode) (v : Byte) : List Byte :=
  match mode with
  | .fixed3 => digits3 v
  | .baseline => digitsBaseline v

/-- The start column of Dxyn (R242). -/
def startColumn (v : Byte) : Nat := v.toNat % Config.fbWidth

/-- The start row of Dxyn (R242). -/
def startRow (v : Byte) : Nat := v.toNat % Config.fbHeight

/-- How many rows Dxyn draws: the rows past the bottom edge are clipped (R242). -/
def visibleRows (y0 : Nat) (n : Fin 16) : Nat := min n.val (Config.fbHeight - y0)

/-- How many bits of a row Dxyn draws: the bits past the right edge are clipped (R242). -/
def visibleCols (x0 : Nat) : Nat := min 8 (Config.fbWidth - x0)

end Sys2Proof.Machine
end

