-- ==== Sys2Proof/Machine/Alu.lean ====
section
/-! DEFINITION. The arithmetic/logic family 8xy_ (file 42): operands read first, the result written to
VX, then the flag to VF where the instruction has one (R180). -/

namespace Sys2Proof.Machine

/-- Write a result and then a flag, so that VF ends as the flag when X = 0xF (R180). -/
def writeFlagged (x : Reg) (result : Byte) (flag : Bool) (s : State) : Result :=
  .next ((s.setReg x result).setReg VF (Flags.value flag))

/-- `LD Vx, Vy` (R181). -/
def execLdReg (x y : Reg) (s : State) : Result := .next (s.setReg x (s.reg y))

/-- `OR Vx, Vy` (R182). -/
def execOrReg (x y : Reg) (s : State) : Result := .next (s.setReg x (s.reg x ||| s.reg y))

/-- `AND Vx, Vy` (R183). -/
def execAndReg (x y : Reg) (s : State) : Result := .next (s.setReg x (s.reg x &&& s.reg y))

/-- `XOR Vx, Vy` (R184). -/
def execXorReg (x y : Reg) (s : State) : Result := .next (s.setReg x (s.reg x ^^^ s.reg y))

/-- `ADD Vx, Vy`: VF is the carry (R185). -/
def execAddReg (x y : Reg) (s : State) : Result :=
  writeFlagged x (s.reg x + s.reg y) (Flags.carry (s.reg x) (s.reg y)) s

/-- `SUB Vx, Vy`: VX − VY, VF is NOT borrow (R186). -/
def execSub (x y : Reg) (s : State) : Result :=
  writeFlagged x (s.reg x - s.reg y) (Flags.notBorrow s.cfg.subFlagStrict (s.reg x) (s.reg y)) s

/-- `SUBN Vx, Vy`: VY − VX, VF is NOT borrow (R188). -/
def execSubn (x y : Reg) (s : State) : Result :=
  writeFlagged x (s.reg y - s.reg x) (Flags.notBorrow s.cfg.subFlagStrict (s.reg y) (s.reg x)) s

/-- `SHR Vx, Vy`: logical, by one; VF is the bit shifted out (R187). -/
def execShr (x y : Reg) (s : State) : Result :=
  writeFlagged x (shiftOperand s x y >>> 1) (Flags.outRight (shiftOperand s x y)) s

/-- `SHL Vx, Vy`: by one; VF is the bit shifted out (R189). -/
def execShl (x y : Reg) (s : State) : Result :=
  writeFlagged x (shiftOperand s x y <<< 1) (Flags.outLeft (shiftOperand s x y)) s

end Sys2Proof.Machine
end

