-- ==== Sys2Proof/Machine/ControlFlow.lean ====
section
/-! DEFINITION. Control transfer (file 40): return, jump, call and the skips. Every meaning is entered
with pc = a + 2 (R34, R121). -/

namespace Sys2Proof.Machine

/-- `RET`: the most recently pushed entry becomes pc; an empty stack raises `StackUnderflow` (R141). -/
def execRet (s : State) : Result :=
  match s.stack with
  | [] => raiseIn .ret .stackUnderflow none s
  | r :: rest => .next ((s.setStack rest).setPc r)

/-- `JP nnn` (R142). -/
def execJp (nnn : Addr12) (s : State) : Result := .next (s.setPc (target nnn))

/-- `CALL nnn`: pc, the address after the call, is pushed; a full stack raises `StackOverflow` (R143). -/
def execCall (nnn : Addr12) (s : State) : Result :=
  if s.sp = Config.stackDepth then raiseIn (.call nnn) .stackOverflow none s
  else .next ((s.setStack (s.pc :: s.stack)).setPc (target nnn))

/-- `SE Vx, kk` (R144). -/
def execSeImm (x : Reg) (kk : Byte) (s : State) : Result := .next (s.skipIf (s.reg x == kk))

/-- `SNE Vx, kk` (R145). -/
def execSneImm (x : Reg) (kk : Byte) (s : State) : Result := .next (s.skipIf (s.reg x != kk))

/-- `SE Vx, Vy` (R146). -/
def execSeReg (x y : Reg) (s : State) : Result := .next (s.skipIf (s.reg x == s.reg y))

/-- `SNE Vx, Vy` (R147). -/
def execSneReg (x y : Reg) (s : State) : Result := .next (s.skipIf (s.reg x != s.reg y))

end Sys2Proof.Machine
end

