-- ==== Sys2Proof/Machine/Draw.lean ====
section
/-! DEFINITION. The display instructions (file 44). -/

namespace Sys2Proof.Machine

/-- `CLS`: every cell unlit, VF not written (R241). -/
def execCls (s : State) : Result := .next (s.setFb Display.blank)

/-- `DRW Vx, Vy, n`: the visible sprite rows are read from I up and XORed onto the grid from the wrapped
start cell, clipped at the right and bottom edges; VF is the collision flag. A row that is clipped is
not read, and a read at 4096 or above leaves everything as it was (R242). -/
def execDrw (x y : Reg) (n : Fin 16) (s : State) : Result :=
  let x0 := startColumn (s.reg x)
  let y0 := startRow (s.reg y)
  afterAccess (.drw x y n) s (s.mem.readBlock s.I.toNat (visibleRows y0 n)) fun bs =>
    let drawn := Display.drawRows (s.fb, false) x0 y0 (visibleCols x0) bs
    .next ((s.setFb drawn.1).setReg VF (Flags.value drawn.2))

end Sys2Proof.Machine
end

