-- ==== Sys2Proof/Machine/IndexMemory.lean ====
section
/-! DEFINITION. The index register and the memory instructions (file 43). No instruction here changes
I as a side effect of an access (R216). -/

namespace Sys2Proof.Machine

/-- `LD I, nnn` (R210). -/
def execLdI (nnn : Addr12) (s : State) : Result := .next (s.setI (target nnn))

/-- `ADD I, Vx`: a 16-bit sum; VF becomes 1 on an enabled overflow past 0xFFF and is otherwise left
alone (R211). -/
def execAddI (x : Reg) (s : State) : Result :=
  let sum := s.I + (s.reg x).setWidth 16
  let s' := s.setI sum
  .next (if Flags.indexOverflow s.cfg.indexOverflowFlag sum then s'.setReg VF 1 else s')

/-- `LD F, Vx` (R212). -/
def execLdF (x : Reg) (s : State) : Result := .next (s.setI (glyphAddress (s.reg x)))

/-- `LD B, Vx`: the decimal digits of VX from I up, in the mode of `cfg.bcd_mode` (R213). -/
def execLdB (x : Reg) (s : State) : Result :=
  afterAccess (.ldB x) s (s.mem.writeBlock s.I.toNat (bcdBytes s.cfg.bcdMode (s.reg x))) fun m =>
    .next (s.setMem m)

/-- `LD [I], Vx`: V0..VX to memory from I up (R214). -/
def execStore (x : Reg) (s : State) : Result :=
  afterAccess (.store x) s (s.mem.writeBlock s.I.toNat (regRange s x)) fun m => .next (s.setMem m)

/-- `LD Vx, [I]`: V0..VX from memory from I up (R215). -/
def execLoad (x : Reg) (s : State) : Result :=
  afterAccess (.load x) s (s.mem.readBlock s.I.toNat (x.val + 1)) fun bs =>
    .next (s.setRegs (loadRegs s.x 0 bs))

end Sys2Proof.Machine
end

