-- ==== Sys2Proof/Machine/KeypadTimers.lean ====
section
/-! DEFINITION. The key skips and the timer accesses (file 45). -/

namespace Sys2Proof.Machine

/-- The shared part of the key skips: a key number above 0x0F raises `KeyOutOfRange` with the value of
VX; otherwise skip when the key's bit is `wanted` (R260, R261). -/
def skipOnKey (i : Instr) (x : Reg) (wanted : Bool) (s : State) : Result :=
  match keyOf (s.reg x) with
  | none => raiseIn i .keyOutOfRange (some ((s.reg x).setWidth 16)) s
  | some k => .next (s.skipIf (s.keys[k] == wanted))

/-- `SKP Vx` (R260). -/
def execSkp (x : Reg) (s : State) : Result := skipOnKey (.skp x) x true s

/-- `SKNP Vx` (R261). -/
def execSknp (x : Reg) (s : State) : Result := skipOnKey (.sknp x) x false s

/-- `LD Vx, DT` (R262). -/
def execLdVxDt (x : Reg) (s : State) : Result := .next (s.setReg x s.DT)

/-- `LD DT, Vx` (R263). -/
def execLdDtVx (x : Reg) (s : State) : Result := .next (s.setDT (s.reg x))

/-- `LD ST, Vx` (R264). -/
def execLdStVx (x : Reg) (s : State) : Result := .next (s.setST (s.reg x))

end Sys2Proof.Machine
end

