-- ==== Sys2Proof/Machine/LoadAdd.lean ====
section
/-! DEFINITION. Load and add immediate (file 41): no flag effect. -/

namespace Sys2Proof.Machine

/-- `LD Vx, kk` (R170). -/
def execLdImm (x : Reg) (kk : Byte) (s : State) : Result := .next (s.setReg x kk)

/-- `ADD Vx, kk`, modulo 256, no carry recorded (R171). -/
def execAddImm (x : Reg) (kk : Byte) (s : State) : Result := .next (s.setReg x (s.reg x + kk))

end Sys2Proof.Machine
end

