-- ==== Sys2Proof/Machine/HostOps.lean ====
section
/-! DEFINITION. The host interface (file 60 §7, file 70 §1): construction, the timer tick, the key
events, and the operations that only read. `Step` itself is `Machine/Step.lean`. -/

namespace Sys2Proof.Machine

/-! ### Operations that change the core -/

/-- `Construct(rom, cfg)` (R301, R330): a ROM above 3584 bytes is refused (R331); otherwise memory is
cleared, the font placed at 0x050 and the ROM at 0x200, and every other component takes its reset value. -/
def construct (rom : List Byte) (cfg : Cfg) : Result :=
  if rom.length > Config.romMax then .refused (.romTooLarge rom.length)
  else
    let withFont := Memory.place [] Config.fontBase (fontBytes cfg.font)
    .next { State.reset with mem := Memory.place withFont Config.romBase rom, cfg := cfg }

/-- One timer, saturating at 0 (R39, R40, R291). -/
def countDown (t : Byte) : Byte := if t = 0 then 0 else t - 1

/-- `TickTimers`: both timers, whatever the status (R291, R294). -/
def tickTimers (s : State) : State := (s.setDT (countDown s.DT)).setST (countDown s.ST)

/-- `KeyDown(k)` (R304). -/
def keyDown (k : Key) (s : State) : State := s.setKeys (s.keys.set k true)

/-- `KeyUp(k)` (R305). -/
def keyUp (k : Key) (s : State) : State := s.setKeys (s.keys.set k false)

/-! ### Operations that only read -/

/-- `ReadPixel(c, r)` (R306). -/
def readPixel (s : State) (c : Fin 64) (r : Fin 32) : Bool := s.fb[c][r]

/-- `IsDown(k)` (R307). -/
def isDown (s : State) (k : Key) : Bool := s.keys[k]

/-- The keys in ascending order. -/
def allKeys : List Key := [0, 1, 2, 3, 4, 5, 6, 7, 8, 9, 10, 11, 12, 13, 14, 15]

/-- `FirstPressed`: the lowest key that is down, if any (R307). -/
def firstPressed (s : State) : Option Key := allKeys.find? (isDown s)

/-- `SoundOn` (R50, R308). -/
def soundOn (s : State) : Bool := decide (s.ST.toNat > 0)

/-- The code of a fault kind (R281). -/
def FaultKind.code : FaultKind → Nat
  | .decodeFailure => 1
  | .stackUnderflow => 2
  | .stackOverflow => 3
  | .addressOutOfRange => 4
  | .keyOutOfRange => 5

/-- The fault record `Status` reports, if the core is halted (R43, R308). -/
def faultReport (s : State) : Option FaultRecord :=
  match s.status with
  | .running => none
  | .halted r => some r

/-- What the host reads by status query: the status register with its fault record (R43, R308), the index
register and the depth of the call stack (R42). No signal of R311 carries the last two; that one query answers
all three is log entry 17. -/
structure StatusReport where
  status : Status
  I : Word
  sp : Nat
deriving DecidableEq, Repr

/-- The host operation `Status`; it changes nothing (R42, R308). -/
def statusQuery (s : State) : StatusReport where
  status := s.status
  I := s.I
  sp := s.sp

/-- The output signals of the signal-level rendering (R311). -/
structure Signals where
  fbPixel : Bool
  keyIsDown : Bool
  firstValid : Bool
  firstIdx : BitVec 4
  soundOn : Bool
  halted : Bool
  faultKind : BitVec 3
  faultAt : Word
  faultWord : Word
  faultInfo : Word
deriving DecidableEq, Repr

/-- The output signals for the input signals `key_idx`, `fb_col` and `fb_row`: an absent field of the
fault record, or no record, reads as 0 (R311). DESIGN CHOICE (log entry 19): `first_idx` is 0 when no key is
down, where the spec gives it no value. -/
def signals (s : State) (keyIdx : Key) (fbCol : Fin 64) (fbRow : Fin 32) : Signals where
  fbPixel := readPixel s fbCol fbRow
  keyIsDown := isDown s keyIdx
  firstValid := (firstPressed s).isSome
  firstIdx := ((firstPressed s).map fun k => BitVec.ofFin (w := 4) k).getD 0
  soundOn := soundOn s
  halted := (faultReport s).isSome
  faultKind := ((faultReport s).map fun r => BitVec.ofNat 3 r.kind.code).getD 0
  faultAt := ((faultReport s).map FaultRecord.addr).getD 0
  faultWord := ((faultReport s).bind FaultRecord.word).getD 0
  faultInfo := ((faultReport s).bind FaultRecord.info).getD 0

/-- The physical keyboard mapping the spec records as informative host-side data (R309; log entry 16).
No step uses it; an unmapped input is no operation. -/
def physicalKey : Char → Option Key
  | '1' => some 0x1 | '2' => some 0x2 | '3' => some 0x3 | '4' => some 0xC
  | 'Q' => some 0x4 | 'W' => some 0x5 | 'E' => some 0x6 | 'R' => some 0xD
  | 'A' => some 0x7 | 'S' => some 0x8 | 'D' => some 0x9 | 'F' => some 0xE
  | 'Z' => some 0xA | 'X' => some 0x0 | 'C' => some 0xB | 'V' => some 0xF
  | _ => none

end Sys2Proof.Machine
end

