-- ==== Sys2Proof/Machine/Step.lean ====
section
/-! DEFINITION. One step of the machine: the Step of R120, and the serving of the host's requests
(R300, R310). -/

namespace Sys2Proof.Machine

/-- One Step of a running core: fetch, decode, execute (R120). -/
def runInstruction (s : State) : Result :=
  match fetch s with
  | .error a => raiseFetch a s
  | .ok w =>
    match decode w with
    | .error _ => raiseDecode w s
    | .ok i => exec i s.advance

/-- The host operation `Step` (R302): a halted core changes nothing and reports its record again (R123). -/
def stepOp (s : State) : Result :=
  match s.status with
  | .running => runInstruction s
  | .halted r => .fault (.halted r)

/-- A requested Step: on a halted core it changes nothing, and the status register is the report (R123,
R308; log entry 8), so that the requests after it are still served (R294). -/
def serveStep (s : State) : Result :=
  match s.status with
  | .running => runInstruction s
  | .halted _ => .next s

/-- Serve one request of the host (R300). A construction discards the whole previous state (R332); the
requests after it are the host's and stay (log entry 9). -/
def serve (op : HostOp) (s : State) : Result :=
  match op with
  | .construct rom cfg =>
    match construct rom cfg with
    | .next s' => .next (s'.setPending s.pending)
    | .fault f => .fault f
    | .refused r => .refused r
  | .step => serveStep s
  | .tickTimers => .next (tickTimers s)
  | .keyDown k => .next (keyDown k s)
  | .keyUp k => .next (keyUp k s)

/-- One step of the machine: the oldest request of the host, or, when none is pending, a Step (R310;
log entry 8). -/
def step (s : State) : Host.Outcome State Fault Refusal :=
  match s.pending with
  | [] => stepOp s
  | op :: rest => serve op (s.setPending rest)

/-- Where an instruction placed from outside lies: at pc, or at the reset vector where no fetch at pc
can succeed (R76). -/
def placeFor (pc : Word) : Word := if pc.toNat + 1 < Config.memSize then pc else Config.pcReset

/-- The state with an instruction stored where the next step fetches it: the core is running and no
request stands before that Step (log entry 1). -/
def State.withFetchWord (s : State) (nbits w : Nat) : State :=
  { s with
    mem := Memory.place s.mem (placeFor s.pc).toNat (bytesOfWord (tableWord nbits w))
    pc := placeFor s.pc
    status := .running
    pending := [] }

end Sys2Proof.Machine
end

