-- ==== Sys2Proof/Safety.lean ====
section
/-! DEFINITION. The terms the claims are stated in: what a step leaves unchanged (`Frame`), the invariant
every step keeps (`State.Inv`), and a run without a fault (`SafeFor`). -/

namespace Sys2Proof.Machine

/-! ### Frames -/

/-- The components of the state. -/
inductive Part where
  | mem | regs | I | pc | stack | DT | ST | fb | keys | status | cfg | pending
deriving DecidableEq, Repr

/-- A component is the same in two states: memory byte by byte, the registers one by one. -/
def Part.same : Part → State → State → Prop
  | .mem, s, t => ∀ a, t.mem.read a = s.mem.read a
  | .regs, s, t => ∀ r, t.reg r = s.reg r
  | .I, s, t => t.I = s.I
  | .pc, s, t => t.pc = s.pc
  | .stack, s, t => t.stack = s.stack
  | .DT, s, t => t.DT = s.DT
  | .ST, s, t => t.ST = s.ST
  | .fb, s, t => t.fb = s.fb
  | .keys, s, t => t.keys = s.keys
  | .status, s, t => t.status = s.status
  | .cfg, s, t => t.cfg = s.cfg
  | .pending, s, t => t.pending = s.pending

/-- Every component but those listed is unchanged from `s` to `t`. -/
def Frame (changed : List Part) (s t : State) : Prop := ∀ p, p ∉ changed → p.same s t

/-- Every register but those listed is unchanged. -/
def RegsBut (written : List Reg) (s t : State) : Prop := ∀ r, r ∉ written → t.reg r = s.reg r

/-- Every byte of memory outside the `n` bytes from `a` up is unchanged. -/
def MemBut (a n : Nat) (s t : State) : Prop :=
  ∀ b, b < a ∨ a + n ≤ b → t.mem.read b = s.mem.read b

/-- `t` is `s` with the fault of the instruction `i` taken in its execute phase: the status register
holds the record and nothing else differs (R282, R283). `s` is the state the execute phase starts from,
with pc = a + 2. -/
def TakesFault (i : Instr) (kind : FaultKind) (info : Option Word) (s t : State) : Prop :=
  t.status = .halted ⟨kind, s.pc - 2, some (encode i), info⟩ ∧ Frame [.status] s t

/-! ### What an instruction works on -/

/-- The core runs and no request of the host stands before the next Step. -/
abbrev Idle (s : State) : Prop := s.status = .running ∧ s.pending = []

/-- The step of `s` performs a Step of the running core from the state `u`: from `s` itself when no request is
pending, or from `s` without the Step that the host requested (R302; log entry 8). -/
abbrev StepsFrom (s u : State) : Prop :=
  s.status = .running ∧ ((s.pending = [] ∧ u = s) ∨ ∃ rest, s.pending = .step :: rest ∧ u = s.setPending rest)

/-- The two bytes of a fetch lie in memory (R76). -/
abbrev FetchFits (s : State) : Prop := s.pc.toNat + 1 < 4096

/-- The word a fetch reads, the byte at pc high (R76). -/
def fetchedWord (s : State) : Word := wordOfBytes (s.mem.read s.pc.toNat) (s.mem.read (s.pc.toNat + 1))

/-- `n` bytes from I up lie in memory; no byte at all always does (R72, R216). -/
abbrev BlockFits (s : State) (n : Nat) : Prop := n = 0 ∨ s.I.toNat + n ≤ 4096

/-- The first address at 4096 or above of a block from I up that does not fit: I, or 0x1000 (R281). -/
def firstOutside (s : State) : Word := BitVec.ofNat 16 (max s.I.toNat 4096)

/-- How many sprite rows of Dxyn are not clipped off the bottom edge (R242). -/
def spriteRows (s : State) (y : Reg) (n : Fin 16) : Nat := min n.val (32 - (s.reg y).toNat % 32)

/-- The sprite bit Dxyn lays on cell (c, r) of the grid: the start cell wraps, the sprite does not, and the
most significant bit of a row is leftmost (R242). -/
def spriteBit (s : State) (x y : Reg) (n : Fin 16) (c r : Nat) : Bool :=
  let x0 := (s.reg x).toNat % 64
  let y0 := (s.reg y).toNat % 32
  decide (x0 ≤ c ∧ c < x0 + 8 ∧ y0 ≤ r ∧ r < y0 + n.val) &&
    (s.mem.read (s.I.toNat + (r - y0))).getLsbD (7 - (c - x0))

/-- Some set sprite bit lands on a lit cell of the grid (R242). -/
def Collides (s : State) (x y : Reg) (n : Fin 16) : Prop :=
  ∃ c < 64, ∃ r < 32, spriteBit s x y n c r = true ∧ s.fb.cell c r = true

/-- The decimal digits Fx33 writes: three, or those of the numeral without leading zeros (R213). -/
def decimalDigits (mode : BcdMode) (v : Nat) : List Nat :=
  match mode with
  | .fixed3 => [v / 100, v / 10 % 10, v % 10]
  | .baseline => (Nat.digits 10 v).reverse

/-- The registers an instruction may write (the last column of R33). -/
def writesRegs : Instr → List Reg
  | .ldImm x _ | .addImm x _ | .ldReg x _ | .orReg x _ | .andReg x _ | .xorReg x _ | .ldVxDt x => [x]
  | .addReg x _ | .sub x _ | .subn x _ | .shr x _ | .shl x _ => [x, VF]
  | .drw _ _ _ | .addI _ => [VF]
  | .load x => (List.finRange 16).filter (· ≤ x)
  | _ => []

/-- The fault kinds that the execute phase of an instruction may raise (the column 'raised by' of R281). -/
def mayRaise : Instr → List FaultKind
  | .ret => [.stackUnderflow]
  | .call _ => [.stackOverflow]
  | .drw _ _ _ | .ldB _ | .store _ | .load _ => [.addressOutOfRange]
  | .skp _ | .sknp _ => [.keyOutOfRange]
  | _ => []

/-- The words that decode as a failure: every space of R105, R106, R111 and R112. -/
def ReservedWord (w : Word) : Prop :=
  (Field.op w = 0x0 ∧ w ≠ 0x00E0 ∧ w ≠ 0x00EE) ∨ Field.op w = 0xB ∨ Field.op w = 0xC ∨
    ((Field.op w = 0x5 ∨ Field.op w = 0x9) ∧ Field.n w ≠ 0) ∨
    (Field.op w = 0x8 ∧ Field.n w ∈ ([0x8, 0x9, 0xA, 0xB, 0xC, 0xD, 0xF] : List (Fin 16))) ∨
    (Field.op w = 0xE ∧ Field.kk w ∉ ([0x9E, 0xA1] : List Byte)) ∨
    (Field.op w = 0xF ∧ Field.kk w ∉ ([0x07, 0x15, 0x18, 0x1E, 0x29, 0x33, 0x55, 0x65] : List Byte))

/-! ### The invariant -/

/-- A fault record agrees with R281, R282 and R283: the fields its kind fills, the instruction that can
raise it, and pc (the faulting address for a fetch fault, two past it otherwise). -/
def FaultRecord.fits (r : FaultRecord) (pc : Word) (stack : List Word) : Bool :=
  match r.kind, r.word, r.info with
  | .addressOutOfRange, none, some a => pc == r.addr && decide (4096 ≤ a.toNat)
  | .addressOutOfRange, some w, some a =>
    pc == r.addr + 2 && decide (4096 ≤ a.toNat) && (Field.op w == 0xD || Field.op w == 0xF)
  | .decodeFailure, some w, none => pc == r.addr + 2 && decide (decode w = .error (.noRow w))
  | .stackUnderflow, some w, none => pc == r.addr + 2 && w == 0x00EE && stack.isEmpty
  | .stackOverflow, some w, none => pc == r.addr + 2 && Field.op w == 0x2 && stack.length == 16
  | .keyOutOfRange, some w, some k =>
    pc == r.addr + 2 && Field.op w == 0xE && decide (0x10 ≤ k.toNat) && decide (k.toNat ≤ 0xFF)
  | _, _, _ => false

/-- The status register holds no record, or one that fits. -/
def Status.fits (st : Status) (pc : Word) (stack : List Word) : Bool :=
  match st with
  | .running => true
  | .halted r => r.fits pc stack

/-- The invariant: memory is in canonical form, the call stack holds at most 16 entries (R41), each an
address that a completed fetch can leave in pc, pc is at most 0x1002 (R36), and the fault record fits. -/
abbrev State.Inv (s : State) : Prop :=
  s.mem.wf = true ∧ s.stack.length ≤ 16 ∧ (s.stack.all fun r => decide (r.toNat ≤ 0x1000)) = true ∧
    s.pc.toNat ≤ 0x1002 ∧ s.status.fits s.pc s.stack = true

/-! ### Safe runs -/

/-- `k` steps from `s` each answer a next state on a running core. -/
def SafeFor : Nat → State → Prop
  | 0, s => s.status = .running
  | k + 1, s => s.status = .running ∧ ∃ t, step s = .next t ∧ SafeFor k t

end Sys2Proof.Machine
end

