-- ==== Sys2Proof/Certificates/Slice0/Obligations.lean ====
section
/-! DEFINITION. The statements for the provers. A statement about a meaning is over the state its execute
phase starts from, so `s.pc` there is the address after the instruction (R34). The terms (`Frame`, `RegsBut`,
`MemBut`, `TakesFault`, `spriteBit`, …) are defined in `Safety.lean`. A statement whose basis is 'derived' rests
on a decision the spec marks as its own (D<n>) or on a log entry, named in its docstring. -/

open Sys2Proof Sys2Proof.Machine

/-! ### Encoding -/

/-- The decoder gives back every encoded instruction with every operand, and the bytes after it (R101, R108,
R109; the sub-opcode nibbles are the spec's decision D19, the byte order its decision D2). -/
def Obligations.DecodeOfEncodeIsTheInstruction : Prop :=
  ∀ (i : Instr) (rest : List Byte),
    decode (encode i) = .ok i ∧ decodeBytes (encodeBytes i ++ rest) = .ok (i, rest)

/-- A word that decodes is the encoding of what it decodes to, so an instruction has one word and the fault
record's word is the fetched word (log entry 6). -/
def Obligations.EncodeOfDecodeIsTheWord : Prop :=
  ∀ (w : Word) (i : Instr), decode w = .ok i → encode i = w

/-- The decoder of R109 agrees with the opcode map of R108: exactly the instruction's own row matches a word
that decodes, and no row matches a word that does not (rows as the spec lists them; nibbles by D19). -/
def Obligations.DecoderAgreesWithOpcodeMap : Prop :=
  ∀ w : Word,
    match decode w with
    | .ok i => (opcodeMap.filter fun r => r.matchesWord w).map OpcodeRow.number = [i.raw.row]
    | .error e => e = .noRow w ∧ (opcodeMap.filter fun r => r.matchesWord w) = []

/-- The words that decode as a failure are exactly the reserved ones (R105, R106, R111, R112; the spec's
decisions D15, D16, D19). -/
def Obligations.ReservedWordsAreTheDecodeFailures : Prop :=
  ∀ w : Word, decode w = .error (.noRow w) ↔ ReservedWord w

/-- A few words written out from R108 decode to the instructions they stand for, and B123 to none (R109, R112). The
nibble of 8127 is the spec's decision D19, the pairing behind E2A1 and F365 its decision D20, the rejection of B123
its decision D16. -/
def Obligations.SampleWordsDecode : Prop :=
  decode 0b0000000011100000#16 = .ok .cls ∧ decode 0b0001101010111100#16 = .ok (.jp 0xABC) ∧
    decode 0b0110101000010010#16 = .ok (.ldImm 0xA 0x12) ∧ decode 0b1000000100100111#16 = .ok (.subn 1 2) ∧
    decode 0b1101000100100011#16 = .ok (.drw 1 2 3) ∧ decode 0b1110001010100001#16 = .ok (.sknp 2) ∧
    decode 0b1111001101100101#16 = .ok (.load 3) ∧ decode 0b1011000100100011#16 = .error (.noRow 0xB123)

/-! ### Control transfer -/

/-- R142: the words 1nnn are `JP nnn`, which sets pc to the zero-extended address. -/
def Obligations.JumpSetsPc : Prop :=
  ∀ (nnn : Addr12) (s : State), decode (0x1#4 ++ nnn) = .ok (.jp nnn) ∧
    ∃ t, exec (.jp nnn) s = .next t ∧ t.pc.toNat = nnn.toNat ∧ Frame [.pc] s t

/-- R144 and R145: the immediate skips advance pc by a further 2, modulo 2^16, exactly when VX equals, or
differs from, KK (the words 3xkk and 4xkk, a pairing that is the spec's decision D20). -/
def Obligations.ImmediateSkipsMoveOnlyPc : Prop :=
  ∀ (x : Reg) (kk : Byte) (s : State),
    decode (0x3#4 ++ BitVec.ofFin (w := 4) x ++ kk) = .ok (.seImm x kk) ∧
    decode (0x4#4 ++ BitVec.ofFin (w := 4) x ++ kk) = .ok (.sneImm x kk) ∧
    (∃ t, exec (.seImm x kk) s = .next t ∧ Frame [.pc] s t ∧
      t.pc.toNat = if s.reg x = kk then (s.pc.toNat + 2) % 65536 else s.pc.toNat) ∧
    ∃ t, exec (.sneImm x kk) s = .next t ∧ Frame [.pc] s t ∧
      t.pc.toNat = if s.reg x ≠ kk then (s.pc.toNat + 2) % 65536 else s.pc.toNat

/-- R146 and R147: the register skips advance pc by a further 2, modulo 2^16, exactly when VX and VY are
equal, or differ; with X = Y the one always skips and the other never does. Their words are 5xy0 and 9xy0 (the
spec's decision D20), and those words with another low nibble decode as a failure (its decision D15). -/
def Obligations.RegisterSkipsMoveOnlyPc : Prop :=
  ∀ (x y : Reg) (s : State),
    (∀ n : BitVec 4, let w := 0x5#4 ++ BitVec.ofFin (w := 4) x ++ BitVec.ofFin (w := 4) y ++ n
      decode w = if n = 0 then .ok (.seReg x y) else .error (.noRow w)) ∧
    (∀ n : BitVec 4, let w := 0x9#4 ++ BitVec.ofFin (w := 4) x ++ BitVec.ofFin (w := 4) y ++ n
      decode w = if n = 0 then .ok (.sneReg x y) else .error (.noRow w)) ∧
    (∃ t, exec (.seReg x y) s = .next t ∧ Frame [.pc] s t ∧
      t.pc.toNat = if s.reg x = s.reg y then (s.pc.toNat + 2) % 65536 else s.pc.toNat) ∧
    (∃ t, exec (.sneReg x y) s = .next t ∧ Frame [.pc] s t ∧
      t.pc.toNat = if s.reg x ≠ s.reg y then (s.pc.toNat + 2) % 65536 else s.pc.toNat) ∧
    (∃ t, exec (.seReg x x) s = .next t ∧ t.pc.toNat = (s.pc.toNat + 2) % 65536) ∧
    ∃ t, exec (.sneReg x x) s = .next t ∧ t.pc = s.pc

/-- `CALL nnn` pushes the address after it and jumps (R143; the pushed value is the spec's decision D7, the
depth 16 its decision D6). -/
def Obligations.CallPushesReturnAddress : Prop :=
  ∀ (nnn : Addr12) (s : State), s.stack.length < 16 →
    ∃ t, exec (.call nnn) s = .next t ∧ t.pc.toNat = nnn.toNat ∧ t.stack = s.pc :: s.stack ∧
      Frame [.pc, .stack] s t

/-- `RET` pops the most recently pushed entry into pc (R141; the stack's order is log entry 10). -/
def Obligations.ReturnPopsIntoPc : Prop :=
  ∀ (s : State) (r : Word) (rest : List Word), s.stack = r :: rest →
    ∃ t, exec .ret s = .next t ∧ t.pc = r ∧ t.stack = rest ∧ Frame [.pc, .stack] s t

/-- A call on a full stack and a return on an empty one take their fault and change nothing else (R141, R143,
R281, R282; the record is the spec's decision D5, the depth D6). -/
def Obligations.StackLimitsTakeTheirFaults : Prop :=
  ∀ (nnn : Addr12) (s : State),
    (s.stack.length = 16 →
      ∃ t, exec (.call nnn) s = .next t ∧ TakesFault (.call nnn) .stackOverflow none s t) ∧
    (s.stack = [] → ∃ t, exec .ret s = .next t ∧ TakesFault .ret .stackUnderflow none s t)

/-- A return undoes a call: pc is the address after the call and the stack is as before (R141, R143; D7). -/
def Obligations.ReturnUndoesCall : Prop :=
  ∀ (nnn : Addr12) (s t u : State), s.stack.length < 16 → exec (.call nnn) s = .next t → u.stack = t.stack →
    ∃ v, exec .ret u = .next v ∧ v.pc = s.pc ∧ v.stack = s.stack

/-! ### Loads and arithmetic -/

/-- `LD Vx, kk` and `ADD Vx, kk`: the result modulo 256, no flag effect; VF is an ordinary destination (R170,
R171; the spec's decision D25). -/
def Obligations.ImmediateLoadAndAddWriteVx : Prop :=
  ∀ (x : Reg) (kk : Byte) (s : State),
    (∃ t, exec (.ldImm x kk) s = .next t ∧ t.reg x = kk ∧ RegsBut [x] s t ∧ Frame [.regs] s t) ∧
    ∃ t, exec (.addImm x kk) s = .next t ∧ (t.reg x).toNat = ((s.reg x).toNat + kk.toNat) % 256 ∧
      RegsBut [x] s t ∧ Frame [.regs] s t

/-- Copy, OR, AND and XOR bit by bit, with no flag (R181–R184; no VF reset is the spec's decision D11). -/
def Obligations.CopyAndLogicWriteOnlyVx : Prop :=
  ∀ (x y : Reg) (s : State),
    (∃ t, exec (.ldReg x y) s = .next t ∧ t.reg x = s.reg y ∧ RegsBut [x] s t ∧ Frame [.regs] s t) ∧
    (∃ t, exec (.orReg x y) s = .next t ∧ RegsBut [x] s t ∧ Frame [.regs] s t ∧
      ∀ b, (t.reg x).getLsbD b = ((s.reg x).getLsbD b || (s.reg y).getLsbD b)) ∧
    (∃ t, exec (.andReg x y) s = .next t ∧ RegsBut [x] s t ∧ Frame [.regs] s t ∧
      ∀ b, (t.reg x).getLsbD b = ((s.reg x).getLsbD b && (s.reg y).getLsbD b)) ∧
    ∃ t, exec (.xorReg x y) s = .next t ∧ RegsBut [x] s t ∧ Frame [.regs] s t ∧
      ∀ b, (t.reg x).getLsbD b = ((s.reg x).getLsbD b ^^ (s.reg y).getLsbD b)

/-- `ADD Vx, Vy`: the sum modulo 256, VF the carry, also when X is VF (R185; the flag written last is the
spec's decision D10). -/
def Obligations.AddSetsCarry : Prop :=
  ∀ (x y : Reg) (s : State), ∃ t, exec (.addReg x y) s = .next t ∧
    (x ≠ VF → (t.reg x).toNat = ((s.reg x).toNat + (s.reg y).toNat) % 256) ∧
    t.reg VF = (if (s.reg x).toNat + (s.reg y).toNat > 255 then 1 else 0) ∧
    RegsBut [x, VF] s t ∧ Frame [.regs] s t

/-- `SUB` and `SUBN`: the difference modulo 256, VF NOT borrow, strict when the configuration says so, also when
X is VF (R186, R188; the spec's decisions D8 and D10). -/
def Obligations.SubtractSetsNotBorrow : Prop :=
  ∀ (x y : Reg) (s : State),
    let a := (s.reg x).toNat
    let b := (s.reg y).toNat
    let strict := s.cfg.subFlagStrict = true
    (∃ t, exec (.sub x y) s = .next t ∧ (x ≠ VF → (t.reg x).toNat = (a + 256 - b) % 256) ∧
      t.reg VF = (if (strict ∧ a > b) ∨ (¬ strict ∧ a ≥ b) then 1 else 0) ∧
      RegsBut [x, VF] s t ∧ Frame [.regs] s t) ∧
    ∃ t, exec (.subn x y) s = .next t ∧ (x ≠ VF → (t.reg x).toNat = (b + 256 - a) % 256) ∧
      t.reg VF = (if (strict ∧ b > a) ∨ (¬ strict ∧ b ≥ a) then 1 else 0) ∧
      RegsBut [x, VF] s t ∧ Frame [.regs] s t

/-- `SHR` and `SHL`: by one, logical, of VY under copy-shift and of VX otherwise, VF the bit shifted out, also
when X is VF (R187, R189; the spec's decisions D10 and D22). -/
def Obligations.ShiftsMoveOneBitIntoVf : Prop :=
  ∀ (x y : Reg) (s : State),
    let v := (if s.cfg.useCopyShift = true then s.reg y else s.reg x).toNat
    (∃ t, exec (.shr x y) s = .next t ∧ (x ≠ VF → (t.reg x).toNat = v / 2) ∧
      (t.reg VF).toNat = v % 2 ∧ RegsBut [x, VF] s t ∧ Frame [.regs] s t) ∧
    ∃ t, exec (.shl x y) s = .next t ∧ (x ≠ VF → (t.reg x).toNat = v * 2 % 256) ∧
      (t.reg VF).toNat = v / 128 ∧ RegsBut [x, VF] s t ∧ Frame [.regs] s t

/-! ### Index register and memory -/

/-- R210 and R212: `LD I, nnn` (the words Annn) loads the zero-extended address; `LD F, Vx` (Fx29) the address
of the glyph of VX's low nibble, which lies in 0x050..0x09B. Nothing else changes. -/
def Obligations.LoadIndexAndFontAddress : Prop :=
  ∀ (x : Reg) (nnn : Addr12) (s : State),
    decode (0xA#4 ++ nnn) = .ok (.ldI nnn) ∧
    decode (0xF#4 ++ BitVec.ofFin (w := 4) x ++ 0x29#8) = .ok (.ldF x) ∧
    (∃ t, exec (.ldI nnn) s = .next t ∧ t.I.toNat = nnn.toNat ∧ Frame [.I] s t) ∧
    ∃ t, exec (.ldF x) s = .next t ∧ t.I.toNat = 0x050 + 5 * ((s.reg x).toNat % 16) ∧
      0x050 ≤ t.I.toNat ∧ t.I.toNat ≤ 0x09B ∧ Frame [.I] s t

/-- `ADD I, Vx`: a 16-bit sum; VF becomes 1 on an enabled result of 4096 or more and is otherwise unchanged
(R211; the spec's decision D13). -/
def Obligations.AddIndexMayRaiseVf : Prop :=
  ∀ (x : Reg) (s : State),
    let sum := (s.I.toNat + (s.reg x).toNat) % 65536
    ∃ t, exec (.addI x) s = .next t ∧ t.I.toNat = sum ∧ RegsBut [VF] s t ∧ Frame [.I, .regs] s t ∧
      t.reg VF = if s.cfg.indexOverflowFlag = true ∧ 4096 ≤ sum then 1 else s.reg VF

/-- `LD B, Vx` writes the decimal digits of its mode from I up, and only those bytes, or takes
`AddressOutOfRange` with no byte written when one of them lies at 4096 or above (R213; the spec's decisions D4,
D5 and D9). -/
def Obligations.BcdWritesItsDigits : Prop :=
  ∀ (x : Reg) (s : State), s.mem.wf = true →
    let ds := decimalDigits s.cfg.bcdMode (s.reg x).toNat
    (BlockFits s ds.length → ∃ t, exec (.ldB x) s = .next t ∧
      (∀ j < ds.length, (t.mem.read (s.I.toNat + j)).toNat = ds.getD j 0) ∧
      MemBut s.I.toNat ds.length s t ∧ Frame [.mem] s t) ∧
    (¬ BlockFits s ds.length → ∃ t, exec (.ldB x) s = .next t ∧
      TakesFault (.ldB x) .addressOutOfRange (some (firstOutside s)) s t)

/-- `LD [I], Vx` stores V0..VX from I up, and only there, or takes `AddressOutOfRange` with no byte written
(R214; the spec's decisions D4 and D5). -/
def Obligations.StoreWritesV0ToVx : Prop :=
  ∀ (x : Reg) (s : State), s.mem.wf = true →
    (BlockFits s (x.val + 1) → ∃ t, exec (.store x) s = .next t ∧
      (∀ r : Reg, r ≤ x → t.mem.read (s.I.toNat + r.val) = s.reg r) ∧
      MemBut s.I.toNat (x.val + 1) s t ∧ Frame [.mem] s t) ∧
    (¬ BlockFits s (x.val + 1) → ∃ t, exec (.store x) s = .next t ∧
      TakesFault (.store x) .addressOutOfRange (some (firstOutside s)) s t)

/-- `LD Vx, [I]` loads V0..VX from I up and no other register, or takes `AddressOutOfRange` with no register
written (R215; the spec's decisions D4 and D5). -/
def Obligations.LoadReadsV0ToVx : Prop :=
  ∀ (x : Reg) (s : State),
    (BlockFits s (x.val + 1) → ∃ t, exec (.load x) s = .next t ∧
      (∀ r : Reg, t.reg r = if r ≤ x then s.mem.read (s.I.toNat + r.val) else s.reg r) ∧ Frame [.regs] s t) ∧
    (¬ BlockFits s (x.val + 1) → ∃ t, exec (.load x) s = .next t ∧
      TakesFault (.load x) .addressOutOfRange (some (firstOutside s)) s t)

/-- The round-trip law of R215: after a store, a load with the same I and memory gives V0..VX back. -/
def Obligations.LoadAfterStoreRestores : Prop :=
  ∀ (x : Reg) (s t u : State), s.mem.wf = true → BlockFits s (x.val + 1) → exec (.store x) s = .next t →
    u.mem = t.mem → u.I = t.I →
    ∃ v, exec (.load x) u = .next v ∧ (∀ r : Reg, v.reg r = if r ≤ x then s.reg r else u.reg r) ∧
      Frame [.regs] u v

/-- A store is seen by the next fetch of the bytes it wrote (R83, R335; the byte order is the spec's decision
D2). -/
def Obligations.StoreIsSeenByTheNextFetch : Prop :=
  ∀ (x : Reg) (s t : State) (j : Nat) (hj : j < x.val), s.mem.wf = true → BlockFits s (x.val + 1) →
    exec (.store x) s = .next t → t.pc.toNat = s.I.toNat + j →
    fetch t = .ok (wordOfBytes (s.reg ⟨j, by omega⟩) (s.reg ⟨j + 1, by omega⟩))

/-- The canonical form makes memory data: two memories in it that read alike are the same list (log entry 4). -/
def Obligations.CanonicalMemoryIsDeterminedByItsBytes : Prop :=
  ∀ m n : Memory, m.wf = true → n.wf = true → (∀ a < 4096, m.read a = n.read a) → m = n

/-! ### Display -/

/-- R241: `CLS` (the word 00E0) clears every cell and changes nothing else. -/
def Obligations.ClsClearsEveryCell : Prop :=
  decode 0x00E0#16 = .ok .cls ∧
  ∀ s : State, ∃ t, exec .cls s = .next t ∧ (∀ (c : Fin 64) (r : Fin 32), t.fb[c][r] = false) ∧ Frame [.fb] s t

/-- `DRW Vx, Vy, n`: every cell is XORed with the clipped sprite's bit, VF is 1 exactly when a set bit lands on a
lit cell and 0 otherwise, and only the display and VF change (R242; the spec's decision D12). -/
def Obligations.DrawXorsSpriteAndSetsCollision : Prop :=
  ∀ (x y : Reg) (n : Fin 16) (s : State), BlockFits s (spriteRows s y n) →
    ∃ t, exec (.drw x y n) s = .next t ∧
      (∀ c < 64, ∀ r < 32, t.fb.cell c r = (s.fb.cell c r ^^ spriteBit s x y n c r)) ∧
      (Collides s x y n → t.reg VF = 1) ∧ (¬ Collides s x y n → t.reg VF = 0) ∧
      RegsBut [VF] s t ∧ Frame [.fb, .regs] s t

/-- `DRW` whose unclipped rows leave memory takes `AddressOutOfRange` and changes nothing else: no cell and not
VF (R242; the spec's decisions D4, D5 and D12). -/
def Obligations.DrawOutsideMemoryTakesTheFault : Prop :=
  ∀ (x y : Reg) (n : Fin 16) (s : State), ¬ BlockFits s (spriteRows s y n) →
    ∃ t, exec (.drw x y n) s = .next t ∧
      TakesFault (.drw x y n) .addressOutOfRange (some (firstOutside s)) s t

/-- Drawing the same sprite at the same place a second time restores every cell (the XOR-blit of R242; VF may
have been a coordinate, so the second state has the coordinates of the first). -/
def Obligations.DrawingTwiceRestoresTheDisplay : Prop :=
  ∀ (x y : Reg) (n : Fin 16) (s t u : State), BlockFits s (spriteRows s y n) → exec (.drw x y n) s = .next t →
    u.fb = t.fb → u.mem = s.mem → u.I = s.I → u.reg x = s.reg x → u.reg y = s.reg y →
    ∃ v, exec (.drw x y n) u = .next v ∧ v.fb = s.fb

/-! ### Keypad and timers -/

/-- `SKP` and `SKNP` test the key numbered by VX and move only pc (R260, R261; a key number up to 0x0F). -/
def Obligations.KeySkipsTestTheKeyInVx : Prop :=
  ∀ (x : Reg) (k : Key) (s : State), (s.reg x).toNat = k.val →
    (∃ t, exec (.skp x) s = .next t ∧ Frame [.pc] s t ∧
      t.pc.toNat = if s.keys[k] = true then (s.pc.toNat + 2) % 65536 else s.pc.toNat) ∧
    ∃ t, exec (.sknp x) s = .next t ∧ Frame [.pc] s t ∧
      t.pc.toNat = if s.keys[k] = false then (s.pc.toNat + 2) % 65536 else s.pc.toNat

/-- A key number above 0x0F takes `KeyOutOfRange` with the value of VX (R260, R261; the spec's decisions D5 and
D14). -/
def Obligations.KeyNumberAboveFTakesTheFault : Prop :=
  ∀ (x : Reg) (s : State), 0x0F < (s.reg x).toNat →
    (∃ t, exec (.skp x) s = .next t ∧ TakesFault (.skp x) .keyOutOfRange (some ((s.reg x).setWidth 16)) s t) ∧
    ∃ t, exec (.sknp x) s = .next t ∧ TakesFault (.sknp x) .keyOutOfRange (some ((s.reg x).setWidth 16)) s t

/-- R262, R263 and R264: the copies between VX and the timers (the words Fx07, Fx15 and Fx18, the
spec's decision D20); a sound timer set above 0 sounds at once, one set to 0 is silent at once. -/
def Obligations.TimerCopies : Prop :=
  ∀ (x : Reg) (s : State),
    decode (0xF#4 ++ BitVec.ofFin (w := 4) x ++ 0x07#8) = .ok (.ldVxDt x) ∧
    decode (0xF#4 ++ BitVec.ofFin (w := 4) x ++ 0x15#8) = .ok (.ldDtVx x) ∧
    decode (0xF#4 ++ BitVec.ofFin (w := 4) x ++ 0x18#8) = .ok (.ldStVx x) ∧
    (∃ t, exec (.ldVxDt x) s = .next t ∧ t.reg x = s.DT ∧ RegsBut [x] s t ∧ Frame [.regs] s t) ∧
    (∃ t, exec (.ldDtVx x) s = .next t ∧ t.DT = s.reg x ∧ Frame [.DT] s t) ∧
    ∃ t, exec (.ldStVx x) s = .next t ∧ t.ST = s.reg x ∧ Frame [.ST] s t ∧
      (soundOn t = true ↔ (s.reg x).toNat > 0)

/-- R291: a tick takes one from each timer above 0 and changes nothing else. -/
def Obligations.TickCountsBothTimersDown : Prop :=
  ∀ s : State, (tickTimers s).DT.toNat = s.DT.toNat - 1 ∧ (tickTimers s).ST.toNat = s.ST.toNat - 1 ∧
    Frame [.DT, .ST] s (tickTimers s)

/-- A requested tick or key event is served whatever the status, and changes only the timers, or only the key's
bit, and the request list (R291, R294, R304, R305; the spec's decisions D23 and D27, log entry 8). -/
def Obligations.TicksAndKeyEventsAreServedAlsoWhenHalted : Prop :=
  ∀ (s : State) (k : Key) (rest : List HostOp),
    (s.pending = .tickTimers :: rest → ∃ t, step s = .next t ∧ t.pending = rest ∧ t.DT.toNat = s.DT.toNat - 1 ∧
      t.ST.toNat = s.ST.toNat - 1 ∧ Frame [.DT, .ST, .pending] s t) ∧
    (s.pending = .keyDown k :: rest → ∃ t, step s = .next t ∧ t.pending = rest ∧ Frame [.keys, .pending] s t ∧
      ∀ j : Key, t.keys[j] = if j = k then true else s.keys[j]) ∧
    (s.pending = .keyUp k :: rest → ∃ t, step s = .next t ∧ t.pending = rest ∧ Frame [.keys, .pending] s t ∧
      ∀ j : Key, t.keys[j] = if j = k then false else s.keys[j])

/-- R307: `IsDown` reads the key's bit; `FirstPressed` is the lowest key that is down, or none. -/
def Obligations.FirstPressedIsTheLowestKeyDown : Prop :=
  ∀ s : State, (∀ k : Key, isDown s k = s.keys[k]) ∧
    (∀ k : Key, firstPressed s = some k ↔ s.keys[k] = true ∧ ∀ j < k, s.keys[j] = false) ∧
    (firstPressed s = none ↔ ∀ k : Key, s.keys[k] = false)

/-- The status query answers the status register, I and the depth of the call stack, which a call raises by one and
a return lowers by one (R42, R43, R308; the depth 16 is the spec's decision D6, that one query answers all three is
the model's choice, log entry 17). -/
def Obligations.StatusQueryReadsStatusIAndDepth : Prop :=
  ∀ (nnn : Addr12) (s : State),
    statusQuery s = ⟨s.status, s.I, s.stack.length⟩ ∧
    (s.stack.length < 16 → ∃ t, exec (.call nnn) s = .next t ∧ (statusQuery t).sp = (statusQuery s).sp + 1) ∧
    (s.stack ≠ [] → ∃ t, exec .ret s = .next t ∧ (statusQuery t).sp + 1 = (statusQuery s).sp) ∧
    ∃ t, exec (.ldI nnn) s = .next t ∧ (statusQuery t).I.toNat = nnn.toNat

/-! ### The step, faults and the halted core -/

/-- A step of an idle core, or a requested Step, is the execute phase of the instruction whose word lies at pc,
entered with pc advanced by 2 (R120, R121; the byte order is the spec's decision D2, the requests log entry 8). -/
def Obligations.StepRunsTheDecodedInstruction : Prop :=
  ∀ (s : State) (i : Instr), s.status = .running → FetchFits s → decode (fetchedWord s) = .ok i →
    (s.pending = [] → step s = exec i (s.setPc (s.pc + 2))) ∧
    ∀ rest, s.pending = .step :: rest → step s = exec i ((s.setPending rest).setPc (s.pc + 2))

/-- An instruction word placed by `withFetchWord` is what the very next step runs, on a running core with no
request pending (log entry 1). -/
def Obligations.PlacedWordRunsNext : Prop :=
  ∀ (s : State) (w : Word) (i : Instr), s.mem.wf = true → decode w = .ok i →
    let s' := s.withFetchWord 16 w.toNat
    step s' = exec i (s'.setPc (s'.pc + 2)) ∧ (FetchFits s → Frame [.mem, .status, .pending] s s')

/-- A Step, requested or not, whose fetch leaves memory takes `AddressOutOfRange` with pc unchanged and no word in
the record (R76, R120, R282; the spec's decisions D4 and D5; the requests are log entry 8). -/
def Obligations.FetchOutsideMemoryTakesTheFault : Prop :=
  ∀ s u : State, StepsFrom s u → ¬ FetchFits u → ∃ t, step s = .next t ∧ Frame [.status] u t ∧
    t.status = .halted ⟨.addressOutOfRange, u.pc, none, some (if u.pc = 0xFFF#16 then 0x1000#16 else u.pc)⟩

/-- A Step, requested or not, that fetches a reserved word takes `DecodeFailure` with the raw word in the record and
pc past it (R110, R121, R282; the spec's decisions D5 and D15, D16; the requests are log entry 8). -/
def Obligations.ReservedWordTakesDecodeFailure : Prop :=
  ∀ s u : State, StepsFrom s u → FetchFits u → ReservedWord (fetchedWord u) →
    ∃ t, step s = .next t ∧ Frame [.status, .pc] u t ∧ t.pc = u.pc + 2 ∧
      t.status = .halted ⟨.decodeFailure, u.pc, some (fetchedWord u), none⟩

/-- R283: after a Step, requested or not, that faults, the state is the one before it except for the status
register, and for pc when the fetch had completed (that pc is the spec's decision D5; the requests are log
entry 8). -/
def Obligations.FaultChangesOnlyStatusAndPc : Prop :=
  ∀ (s u t : State) (r : FaultRecord), StepsFrom s u → step s = .next t → t.status = .halted r →
    Frame [.status, .pc] u t ∧ t.pc = (if FetchFits u then u.pc + 2 else u.pc)

/-- The record of a Step, requested or not, that faults holds the instruction's address and the fetched word,
absent exactly when the fetch faulted (R282; the spec's decision D5, log entries 6 and 8). -/
def Obligations.FaultRecordNamesTheInstruction : Prop :=
  ∀ (s u t : State) (r : FaultRecord), StepsFrom s u → step s = .next t → t.status = .halted r →
    r.addr = u.pc ∧ r.word = if FetchFits u then some (fetchedWord u) else none

/-- R286: a halted core stays halted. A Step reports the record again; no served request but a construction makes
it run (the two ways a Step is asked for are log entries 5 and 8). -/
def Obligations.HaltedCoreStaysHalted : Prop :=
  ∀ (s : State) (r : FaultRecord), s.status = .halted r →
    (s.pending = [] → step s = .fault (.halted r)) ∧
    (∀ rest, s.pending = .step :: rest → step s = .next (s.setPending rest)) ∧
    ∀ t, step s = .next t → t.status = .halted r ∨ ∃ rom cfg rest, s.pending = .construct rom cfg :: rest

/-- Every execute phase, and every Step of a running core, requested or not, answers a next state. The model's
choice, log entry 5: that state is the halted one where the instruction faults (the requests are log entry 8). R122
says that no instruction suspends. -/
def Obligations.EveryInstructionAnswersANextState : Prop :=
  (∀ (i : Instr) (s : State), ∃ t, exec i s = .next t) ∧ ∀ s u : State, StepsFrom s u → ∃ t, step s = .next t

/-! ### Whole-machine rules -/

/-- Each component is written only by the instructions the spec names for it, the keypad and the configuration by
none (R33, R35, R38–R44, R48, R49, R71): the general registers by those that have a register to write, the status
register by those that R281 names, each with its fault kind (its codes and two of its kinds are the spec's decisions
D5, D6 and D14). That none changes the request list is the model's choice, log entry 8. -/
def Obligations.ComponentsHaveOnlyTheirNamedWriters : Prop :=
  ∀ (i : Instr) (s t : State), exec i s = .next t →
    t.keys = s.keys ∧ t.cfg = s.cfg ∧ t.pending = s.pending ∧
    (t.stack ≠ s.stack → i = .ret ∨ ∃ a, i = .call a) ∧
    (t.I ≠ s.I → (∃ a, i = .ldI a) ∨ (∃ x, i = .addI x) ∨ ∃ x, i = .ldF x) ∧
    (t.DT ≠ s.DT → ∃ x, i = .ldDtVx x) ∧ (t.ST ≠ s.ST → ∃ x, i = .ldStVx x) ∧
    (t.fb ≠ s.fb → i = .cls ∨ ∃ x y n, i = .drw x y n) ∧
    (t.mem ≠ s.mem → (∃ x, i = .ldB x) ∨ ∃ x, i = .store x) ∧
    (t.x ≠ s.x → writesRegs i ≠ []) ∧
    (t.status ≠ s.status → ∃ r, t.status = .halted r ∧ r.kind ∈ mayRaise i) ∧
    (t.pc ≠ s.pc → i = .ret ∨ (∃ a, i = .jp a ∨ i = .call a) ∨ (∃ x k, i = .seImm x k ∨ i = .sneImm x k) ∨
      (∃ x y, i = .seReg x y ∨ i = .sneReg x y) ∨ ∃ x, i = .skp x ∨ i = .sknp x)

/-- An instruction writes no register but those of the last column of R33 (VF as a side effect by R32). -/
def Obligations.InstructionsWriteOnlyTheirRegisters : Prop :=
  ∀ (i : Instr) (s t : State), exec i s = .next t → RegsBut (writesRegs i) s t

/-- No instruction reads the sound timer: another value of ST changes nothing of what an instruction does, but
that it stays there (R40, R51). -/
def Obligations.SoundTimerIsNeverObserved : Prop :=
  ∀ (i : Instr) (s t : State) (v : Byte), exec i s = .next t →
    exec i (s.setST v) = .next (match i with | .ldStVx _ => t | _ => t.setST v)

/-- The configuration after a step is that of the construction it serves, and otherwise the one before it: it is
read-only for the lifetime of the core (R42, R44, R330; that a construction is the oldest request of `pending` is the
model's choice, log entry 8). -/
def Obligations.ConfigurationIsReadOnly : Prop :=
  ∀ s t : State, step s = .next t →
    t.cfg = match s.pending with
      | .construct _ cfg :: _ => cfg
      | _ => s.cfg

/-! ### Construction -/

/-- `Construct` with a ROM that fits: the font at 0x050, the ROM at 0x200, zero elsewhere, and every other
component at its reset value (R330; the zeros are the spec's decision D17, log entry 3; the empty request list is
log entry 8). -/
def Obligations.ConstructGivesTheResetState : Prop :=
  ∀ (rom : List Byte) (cfg : Cfg), rom.length ≤ 3584 → ∃ s, construct rom cfg = .next s ∧
    (∀ (g : Fin 16) (k : Fin 5), s.mem.read (0x050 + 5 * g.val + k.val) = cfg.font[g][k]) ∧
    (∀ j < rom.length, s.mem.read (0x200 + j) = rom.getD j 0) ∧
    (∀ a < 4096, a < 0x050 ∨ (0x0A0 ≤ a ∧ a < 0x200) ∨ 0x200 + rom.length ≤ a → s.mem.read a = 0) ∧
    s.pc = 0x200 ∧ s.stack = [] ∧ s.status = .running ∧ s.cfg = cfg ∧ s.pending = [] ∧
    (∀ r : Reg, s.reg r = 0) ∧ s.I = 0 ∧ s.DT = 0 ∧ s.ST = 0 ∧
    (∀ (c : Fin 64) (r : Fin 32), s.fb[c][r] = false) ∧ ∀ k : Key, s.keys[k] = false

/-- The step that serves a requested construction discards the whole old core, halted or running, and answers the
constructed one with the requests behind it; a ROM above 3584 bytes is refused, as R331 says (R286, R301, R332; that
the requests behind it stay is the model's choice, log entries 8 and 9). -/
def Obligations.ConstructionIsServedWhateverTheState : Prop :=
  ∀ (s : State) (rom : List Byte) (cfg : Cfg) (rest : List HostOp), s.pending = .construct rom cfg :: rest →
    (rom.length ≤ 3584 → ∃ c, construct rom cfg = .next c ∧ step s = .next (c.setPending rest) ∧
      c.status = .running) ∧
    (rom.length > 3584 → step s = .refused (.romTooLarge rom.length))

/-- R331: a ROM above 3584 bytes is refused and builds no core; one of exactly 3584 bytes fills 0x200..0xFFF. -/
def Obligations.OversizedRomIsRefused : Prop :=
  ∀ (rom : List Byte) (cfg : Cfg),
    (rom.length > 3584 → construct rom cfg = .refused (.romTooLarge rom.length)) ∧
    (rom.length = 3584 → ∃ s, construct rom cfg = .next s ∧
      ∀ a, 0x200 ≤ a → a ≤ 0xFFF → s.mem.read a = rom.getD (a - 0x200) 0)

/-! ### The invariant -/

/-- The invariant holds after reset (`State.reset` is log entries 1, 2 and 3) and after every construction. -/
def Obligations.InvariantHoldsAfterConstruction : Prop :=
  State.reset.Inv ∧ ∀ (rom : List Byte) (cfg : Cfg) (s : State), construct rom cfg = .next s → s.Inv

/-- Every step keeps the invariant: memory in canonical form, at most 16 stack entries, each at most 0x1000, pc at
most 0x1002, and a fault record that fits R281–R283 (R36, R41; the spec's decisions D5 and D6). -/
def Obligations.EveryStepKeepsTheInvariant : Prop :=
  ∀ s t : State, s.Inv → step s = .next t → t.Inv

/-- Every run from a state with the invariant ends in one, for every list of host requests in it (R310). -/
def Obligations.EveryRunKeepsTheInvariant : Prop :=
  ∀ (k : Nat) (s t : State), s.Inv → core.run k s = .next t → State.Inv t
end

