-- ==== Sys2Proof/Laws/Decode.lean ====
section
/-! SUPPORT. Words and their fields as numbers: one lemma for each field (R101) and each format (R102),
so that a fact about an encoding is a fact of linear arithmetic. -/

namespace Sys2Proof

/-! ### The fields of a word (R101) -/

theorem op_toNat (w : Word) : (Field.op w).toNat = w.toNat / 4096 % 16 := by
  simp [Field.op, Nat.shiftRight_eq_div_pow]

theorem x_val (w : Word) : (Field.x w).val = w.toNat / 256 % 16 := by
  simp [Field.x, Nat.shiftRight_eq_div_pow]

theorem y_val (w : Word) : (Field.y w).val = w.toNat / 16 % 16 := by
  simp [Field.y, Nat.shiftRight_eq_div_pow]

theorem n_val (w : Word) : (Field.n w).val = w.toNat % 16 := by
  simp [Field.n]

theorem kk_toNat (w : Word) : (Field.kk w).toNat = w.toNat % 256 := by
  simp [Field.kk]

theorem nnn_toNat (w : Word) : (Field.nnn w).toNat = w.toNat % 4096 := by
  simp [Field.nnn]

/-! ### The packed words (R102) -/

theorem append_toNat {m n : Nat} (a : BitVec m) (b : BitVec n) : (a ++ b).toNat = a.toNat * 2 ^ n + b.toNat := by
  rw [BitVec.toNat_append, Nat.shiftLeft_eq, Nat.mul_comm, Nat.two_pow_add_eq_or_of_lt b.isLt]

theorem packNnn_toNat (op : BitVec 4) (a : Addr12) : (packNnn op a).toNat = op.toNat * 4096 + a.toNat :=
  append_toNat op a

theorem packXkk_toNat (op : BitVec 4) (x : Reg) (kk : Byte) :
    (packXkk op x kk).toNat = op.toNat * 4096 + x.val * 256 + kk.toNat := by
  have h1 := append_toNat (op ++ BitVec.ofFin (w := 4) x) kk
  have h2 := append_toNat op (BitVec.ofFin (w := 4) x)
  have h3 : (BitVec.ofFin (w := 4) x).toNat = x.val := rfl
  have h4 : (packXkk op x kk).toNat = ((op ++ BitVec.ofFin (w := 4) x) ++ kk).toNat := rfl
  rw [h4, h1, h2, h3]; omega

theorem packXyn_toNat (op : BitVec 4) (x y n : Fin 16) :
    (packXyn op x y n).toNat = op.toNat * 4096 + x.val * 256 + y.val * 16 + n.val := by
  have h1 := append_toNat (op ++ BitVec.ofFin (w := 4) x ++ BitVec.ofFin (w := 4) y) (BitVec.ofFin (w := 4) n)
  have h2 := append_toNat (op ++ BitVec.ofFin (w := 4) x) (BitVec.ofFin (w := 4) y)
  have h3 := append_toNat op (BitVec.ofFin (w := 4) x)
  have h4 : ∀ z : Fin 16, (BitVec.ofFin (w := 4) z).toNat = z.val := fun _ => rfl
  have h5 : (packXyn op x y n).toNat =
      ((op ++ BitVec.ofFin (w := 4) x ++ BitVec.ofFin (w := 4) y) ++ BitVec.ofFin (w := 4) n).toNat := rfl
  rw [h5, h1, h2, h3, h4 x, h4 y, h4 n]; omega

/-! ### What is packed is what is extracted -/

section Extract
variable (op : BitVec 4) (x y n : Fin 16) (kk : Byte) (a : Addr12)

theorem op_packNnn : Field.op (packNnn op a) = op := by
  apply BitVec.eq_of_toNat_eq; rw [op_toNat, packNnn_toNat]; omega
theorem nnn_packNnn : Field.nnn (packNnn op a) = a := by
  apply BitVec.eq_of_toNat_eq; rw [nnn_toNat, packNnn_toNat]; omega
theorem op_packXkk : Field.op (packXkk op x kk) = op := by
  apply BitVec.eq_of_toNat_eq; rw [op_toNat, packXkk_toNat]; omega
theorem x_packXkk : Field.x (packXkk op x kk) = x := by
  apply Fin.ext; rw [x_val, packXkk_toNat]; omega
theorem kk_packXkk : Field.kk (packXkk op x kk) = kk := by
  apply BitVec.eq_of_toNat_eq; rw [kk_toNat, packXkk_toNat]; omega
theorem op_packXyn : Field.op (packXyn op x y n) = op := by
  apply BitVec.eq_of_toNat_eq; rw [op_toNat, packXyn_toNat]; omega
theorem x_packXyn : Field.x (packXyn op x y n) = x := by
  apply Fin.ext; rw [x_val, packXyn_toNat]; omega
theorem y_packXyn : Field.y (packXyn op x y n) = y := by
  apply Fin.ext; rw [y_val, packXyn_toNat]; omega
theorem n_packXyn : Field.n (packXyn op x y n) = n := by
  apply Fin.ext; rw [n_val, packXyn_toNat]; omega

end Extract

/-! ### Bytes -/

/-- The word of two bytes, the high byte first (R76). -/
theorem wordOfBytes_toNat (hi lo : Byte) : (wordOfBytes hi lo).toNat = hi.toNat * 256 + lo.toNat :=
  append_toNat hi lo

theorem highByte_toNat (w : Word) : (highByte w).toNat = w.toNat / 256 := by
  simp [highByte, Nat.shiftRight_eq_div_pow]
  omega

theorem lowByte_toNat (w : Word) : (lowByte w).toNat = w.toNat % 256 := by
  simp [lowByte]

/-- A word laid out as bytes and read back is the word. -/
@[simp] theorem wordOfBytes_bytes (w : Word) : wordOfBytes (highByte w) (lowByte w) = w := by
  apply BitVec.eq_of_toNat_eq
  rw [wordOfBytes_toNat, highByte_toNat, lowByte_toNat]
  omega

/-! ### Failures -/

/-- The decoder has one failure, which names the word (R109, R110). -/
theorem decode_error {w : Word} {e : DecodeError} (h : decode w = .error e) : e = .noRow w := by
  unfold decode at h
  split at h
  all_goals try unfold decode0 at h
  all_goals try unfold decode8 at h
  all_goals try unfold decodeE at h
  all_goals try unfold decodeF at h
  all_goals try split at h
  all_goals try split_ifs at h
  all_goals cases h
  all_goals rfl

end Sys2Proof
end

