-- ==== Sys2Proof/Laws/Display.lean ====
section
/-! SUPPORT. What the frame-buffer operations do to one cell and to the collision flag (R242), said once
for a bit, a row and a sprite. -/

namespace Sys2Proof.Machine.Display

/-- Two frame buffers with the same cells are equal. -/
theorem ext_cell {d e : Display} (h : ∀ c r, c < 64 → r < 32 → d.cell c r = e.cell c r) : d = e := by
  refine Vector.ext fun c hc => Vector.ext fun r hr => ?_
  simpa [cell, hc, hr] using h c r hc hr

theorem cell_eq_getElem (d : Display) {c r : Nat} (hc : c < 64) (hr : r < 32) : d.cell c r = d[c][r] := by
  simp [cell, hc, hr]

theorem cell_blank (c r : Nat) : blank.cell c r = false := by
  by_cases hc : c < 64 <;> by_cases hr : r < 32 <;> simp [cell, blank, hc, hr]

theorem cell_setCell (d : Display) {c r : Nat} (hc : c < 64) (hr : r < 32) (v : Bool) (c' r' : Nat) :
    (d.setCell c r v).cell c' r' = if c' = c ∧ r' = r then v else d.cell c' r' := by
  by_cases h : c' = c
  · subst h
    by_cases h' : r' = r
    · subst h'; simp [cell, setCell, hc, hr]
    · have : r ≠ r' := fun e => h' e.symm
      simp [cell, setCell, hc, h', this]
  · have : c ≠ c' := fun e => h e.symm
    simp [cell, setCell, hc, h, this]

/-! ### One sprite bit -/

theorem plot_cell (acc : Display × Bool) {c r : Nat} (hc : c < 64) (hr : r < 32) (bit : Bool) (c' r' : Nat) :
    (plot acc c r bit).1.cell c' r' = (acc.1.cell c' r' ^^ (bit && decide (c' = c ∧ r' = r))) := by
  cases bit with
  | false => simp [plot]
  | true =>
    by_cases h : c' = c ∧ r' = r
    · obtain ⟨rfl, rfl⟩ := h
      cases hcell : acc.1.cell c' r' <;> simp [plot, hcell, cell_setCell, hc, hr]
    · cases hcell : acc.1.cell c r <;> simp [plot, hcell, cell_setCell, hc, hr, h]

theorem plot_flag (acc : Display × Bool) (c r : Nat) (bit : Bool) :
    (plot acc c r bit).2 = (acc.2 || (bit && acc.1.cell c r)) := by
  cases bit <;> cases h : acc.1.cell c r <;> simp [plot, h]

/-! ### One sprite row -/

theorem drawRow_succ (acc : Display × Bool) (x0 y : Nat) (b : Byte) (cols : Nat) :
    drawRow acc x0 y b (cols + 1) = plot (drawRow acc x0 y b cols) (x0 + cols) y (b.getLsbD (7 - cols)) := by
  simp [drawRow, List.range_succ]

theorem drawRow_cell (acc : Display × Bool) {x0 y cols : Nat} (b : Byte) (hc : x0 + cols ≤ 64) (hy : y < 32)
    (c r : Nat) : (drawRow acc x0 y b cols).1.cell c r =
      (acc.1.cell c r ^^ (decide (r = y ∧ x0 ≤ c ∧ c < x0 + cols) && b.getLsbD (7 - (c - x0)))) := by
  induction cols with
  | zero =>
    have h : ¬ (r = y ∧ x0 ≤ c ∧ c < x0 + 0) := by omega
    rw [decide_eq_false h, Bool.false_and, Bool.xor_false]; rfl
  | succ n ih =>
    rw [drawRow_succ, plot_cell _ (by omega) hy, ih (by omega)]
    by_cases h : c = x0 + n ∧ r = y
    · obtain ⟨rfl, rfl⟩ := h
      simp
    · have : (r = y ∧ x0 ≤ c ∧ c < x0 + (n + 1)) ↔ (r = y ∧ x0 ≤ c ∧ c < x0 + n) := by omega
      simp [h, this]

theorem drawRow_flag (acc : Display × Bool) {x0 y cols : Nat} (b : Byte) (hc : x0 + cols ≤ 64) (hy : y < 32) :
    (drawRow acc x0 y b cols).2 = true ↔
      acc.2 = true ∨ ∃ c < cols, b.getLsbD (7 - c) = true ∧ acc.1.cell (x0 + c) y = true := by
  induction cols with
  | zero => simp [drawRow]
  | succ n ih =>
    rw [drawRow_succ, plot_flag, drawRow_cell _ _ (by omega) hy]
    have hn : ¬ (y = y ∧ x0 ≤ x0 + n ∧ x0 + n < x0 + n) := by omega
    rw [decide_eq_false hn, Bool.false_and, Bool.xor_false, Bool.or_eq_true, ih (by omega), Bool.and_eq_true]
    constructor
    · rintro ((h | ⟨c, hc', h⟩) | h)
      · exact .inl h
      · exact .inr ⟨c, by omega, h⟩
      · exact .inr ⟨n, by omega, h⟩
    · rintro (h | ⟨c, hc', h⟩)
      · exact .inl (.inl h)
      · by_cases e : c = n
        · subst e; exact .inr h
        · exact .inl (.inr ⟨c, by omega, h⟩)

/-! ### A sprite -/

theorem drawRows_cell (acc : Display × Bool) {x0 y cols : Nat} (bs : List Byte) (hc : x0 + cols ≤ 64)
    (hy : y + bs.length ≤ 32) (c r : Nat) : (drawRows acc x0 y cols bs).1.cell c r =
      (acc.1.cell c r ^^ (decide (y ≤ r ∧ r < y + bs.length ∧ x0 ≤ c ∧ c < x0 + cols) &&
        (bs.getD (r - y) 0).getLsbD (7 - (c - x0)))) := by
  induction bs generalizing acc y with
  | nil =>
    have h : ¬ (y ≤ r ∧ r < y + 0 ∧ x0 ≤ c ∧ c < x0 + cols) := by omega
    rw [List.length_nil, decide_eq_false h, Bool.false_and, Bool.xor_false, drawRows]
  | cons b bs ih =>
    simp only [List.length_cons] at hy ⊢
    rw [drawRows, ih (acc := _) (y := y + 1) (by omega), drawRow_cell acc b hc (by omega)]
    by_cases hr : r = y
    · subst hr
      simp
    · have h2 : (y ≤ r ∧ r < y + (bs.length + 1) ∧ x0 ≤ c ∧ c < x0 + cols) ↔
          (y + 1 ≤ r ∧ r < y + 1 + bs.length ∧ x0 ≤ c ∧ c < x0 + cols) := by omega
      by_cases h3 : y + 1 ≤ r
      · have : r - y = (r - (y + 1)) + 1 := by omega
        simp only [hr, h2, this, List.getD_cons_succ, false_and, decide_false, Bool.false_and, Bool.xor_false]
      · have h4 : ¬ (y + 1 ≤ r ∧ r < y + 1 + bs.length ∧ x0 ≤ c ∧ c < x0 + cols) := by omega
        simp only [hr, h2, h4, false_and, decide_false, Bool.false_and, Bool.xor_false]

theorem drawRows_flag (acc : Display × Bool) {x0 y cols : Nat} (bs : List Byte) (hc : x0 + cols ≤ 64)
    (hy : y + bs.length ≤ 32) : (drawRows acc x0 y cols bs).2 = true ↔
      acc.2 = true ∨ ∃ r < bs.length, ∃ c < cols,
        (bs.getD r 0).getLsbD (7 - c) = true ∧ acc.1.cell (x0 + c) (y + r) = true := by
  induction bs generalizing acc y with
  | nil => simp [drawRows]
  | cons b bs ih =>
    simp only [List.length_cons] at hy ⊢
    rw [drawRows, ih (acc := _) (y := y + 1) (by omega), drawRow_flag acc b hc (by omega)]
    have hcell : ∀ c r, (drawRow acc x0 y b cols).1.cell (x0 + c) (y + 1 + r) = acc.1.cell (x0 + c) (y + 1 + r) := by
      intro c r
      rw [drawRow_cell acc b hc (by omega), decide_eq_false (by omega), Bool.false_and, Bool.xor_false]
    simp only [hcell]
    constructor
    · rintro ((h | ⟨c, h1, h2, h3⟩) | ⟨r, h0, c, h1, h2, h3⟩)
      · exact .inl h
      · exact .inr ⟨0, by omega, c, h1, by simpa using h2, by simpa using h3⟩
      · exact .inr ⟨r + 1, by omega, c, h1, by simpa using h2, by rw [← h3]; congr 1; omega⟩
    · rintro (h | ⟨r, h0, c, h1, h2, h3⟩)
      · exact .inl (.inl h)
      · cases r with
        | zero => exact .inl (.inr ⟨c, h1, by simpa using h2, by simpa using h3⟩)
        | succ r =>
          exact .inr ⟨r, by omega, c, h1, by simpa using h2, by rw [← h3]; congr 1; omega⟩

end Sys2Proof.Machine.Display
end

