-- ==== Sys2Proof/Laws/Memory.lean ====
section
/-! SUPPORT. The memory laws: every operation keeps the canonical form, a read after a write, and what a
block access does, said once for each operation. -/

namespace Sys2Proof.Machine.Memory

/-! ### The canonical form is kept -/

theorem wfFrom_mono {lo hi : Nat} {m : Memory} (h : lo ≤ hi) (hm : wfFrom hi m = true) : wfFrom lo m = true := by
  cases m with
  | nil => rfl
  | cons c m =>
    obtain ⟨a, v⟩ := c
    simp only [wfFrom, Bool.and_eq_true, decide_eq_true_eq] at hm ⊢
    exact ⟨⟨⟨by omega, hm.1.1.2⟩, hm.1.2⟩, hm.2⟩

theorem wfFrom_cons {lo a : Nat} {v : Byte} {m : Memory} :
    wfFrom lo ((a, v) :: m) = true ↔ lo ≤ a ∧ a < 4096 ∧ v ≠ unlisted a ∧ wfFrom (a + 1) m = true := by
  simp [wfFrom, and_assoc]

theorem write_wfFrom {lo a : Nat} {m : Memory} (v : Byte) (hlo : lo ≤ a) (ha : a < 4096)
    (hm : wfFrom lo m = true) : wfFrom lo (m.write a v) = true := by
  induction m generalizing lo with
  | nil =>
    by_cases hv : v = unlisted a
    · simp [write, hv, wfFrom]
    · simp [write, hv, wfFrom, hlo, ha]
  | cons c m ih =>
    obtain ⟨b, u⟩ := c
    obtain ⟨h1, h2, h3, h4⟩ := wfFrom_cons.1 hm
    simp only [write]
    split_ifs with hab hv heq hv
    · exact hm
    · exact wfFrom_cons.2 ⟨hlo, ha, hv, wfFrom_cons.2 ⟨by omega, h2, h3, h4⟩⟩
    · exact wfFrom_mono (by omega) h4
    · subst heq; exact wfFrom_cons.2 ⟨hlo, ha, hv, h4⟩
    · exact wfFrom_cons.2 ⟨h1, h2, h3, ih (by omega) h4⟩

/-- A write of one byte keeps the canonical form. -/
theorem write_wf {m : Memory} {a : Nat} (v : Byte) (ha : a < 4096) (hm : m.wf = true) :
    (m.write a v).wf = true := write_wfFrom v (Nat.zero_le a) ha hm

/-! ### Reading -/

theorem read_eq_unlisted {lo a : Nat} {m : Memory} (h : a < lo) (hm : wfFrom lo m = true) :
    m.read a = unlisted a := by
  induction m generalizing lo with
  | nil => rfl
  | cons c m ih =>
    obtain ⟨b, u⟩ := c
    obtain ⟨h1, _, _, h4⟩ := wfFrom_cons.1 hm
    simp only [read, if_neg (show a ≠ b by omega)]
    exact ih (by omega) h4

theorem read_write_from {lo a : Nat} {m : Memory} (v : Byte) (b : Nat) (hm : wfFrom lo m = true) :
    (m.write a v).read b = if b = a then v else m.read b := by
  induction m generalizing lo with
  | nil =>
    by_cases hv : v = unlisted a
    · by_cases hb : b = a
      · subst hb; simp [write, hv, read]
      · simp [write, hv, read, hb]
    · simp [write, hv, read]
  | cons c m ih =>
    obtain ⟨d, u⟩ := c
    obtain ⟨_, _, _, h4⟩ := wfFrom_cons.1 hm
    rcases Nat.lt_trichotomy a d with had | rfl | had
    · have hu : read ((d, u) :: m) a = unlisted a :=
        read_eq_unlisted (Nat.lt_succ_self a) (wfFrom_cons.2 ⟨had, (wfFrom_cons.1 hm).2⟩)
      by_cases hv : v = unlisted a
      · by_cases hb : b = a
        · subst hb; simp [write, had, hv, hu]
        · simp [write, had, hv, hb]
      · rw [write, if_pos had, if_neg hv, read]
    · have hu : read m a = unlisted a := read_eq_unlisted (Nat.lt_succ_self a) h4
      by_cases hv : v = unlisted a
      · by_cases hb : b = a
        · subst hb; simp [write, hv, hu]
        · simp [write, hv, hb, read]
      · by_cases hb : b = a
        · subst hb; simp [write, hv, read]
        · simp [write, hv, hb, read]
    · rw [write, if_neg (by omega), if_neg (by omega), read, read, ih h4]
      by_cases h1 : b = d
      · rw [if_pos h1, if_pos h1, if_neg (by omega)]
      · rw [if_neg h1, if_neg h1]

/-- A read after a write: the written byte at its address, every other byte as before (R80). -/
theorem read_write {m : Memory} (a : Nat) (v : Byte) (b : Nat) (hm : m.wf = true) :
    (m.write a v).read b = if b = a then v else m.read b := read_write_from v b hm

/-! ### Placing bytes (R330) -/

theorem place_wf {m : Memory} {a : Nat} {bs : List Byte} (ha : a + bs.length ≤ 4096) (hm : m.wf = true) :
    (m.place a bs).wf = true := by
  induction bs generalizing m a with
  | nil => exact hm
  | cons b bs ih =>
    simp only [List.length_cons] at ha
    exact ih (by omega) (write_wf b (by omega) hm)

/-- Placed bytes are read back in order, and every other byte is as before. -/
theorem read_place {m : Memory} {a : Nat} {bs : List Byte} (ha : a + bs.length ≤ 4096) (hm : m.wf = true)
    (b : Nat) : (m.place a bs).read b = if a ≤ b ∧ b < a + bs.length then bs.getD (b - a) 0 else m.read b := by
  induction bs generalizing m a with
  | nil => rw [place, if_neg (by simp only [List.length_nil]; omega)]
  | cons v bs ih =>
    simp only [List.length_cons] at ha ⊢
    rw [place, ih (by omega) (write_wf v (by omega) hm), read_write a v b hm]
    by_cases h1 : b = a
    · subst h1
      rw [if_neg (by omega), if_pos rfl, if_pos (by omega)]
      simp
    · by_cases h2 : a + 1 ≤ b ∧ b < a + 1 + bs.length
      · rw [if_pos h2, if_pos (by omega)]
        have : b - a = (b - (a + 1)) + 1 := by omega
        rw [this, List.getD_cons_succ]
      · rw [if_neg h2, if_neg h1, if_neg (by omega)]

/-! ### Block accesses (R72, R77, R284) -/

theorem readChecked_ok {m : Memory} {a : Nat} (h : a < 4096) : m.readChecked a = .ok (m.read a) := by
  simp [readChecked, h]

theorem readChecked_error {m : Memory} {a : Nat} (h : 4096 ≤ a) : m.readChecked a = .error a := by
  simp [readChecked, Nat.not_lt.2 h]

/-- Everything a block read can do. -/
theorem readBlock_eq (m : Memory) (a n : Nat) : m.readBlock a n =
    if n = 0 ∨ a + n ≤ 4096 then .ok ((List.range n).map fun j => m.read (a + j)) else .error (max a 4096) := by
  induction n generalizing a with
  | zero => simp [readBlock]
  | succ n ih =>
    rw [readBlock]
    by_cases ha : a < 4096
    · rw [readChecked_ok ha]
      simp only [ih (a + 1)]
      by_cases h : a + (n + 1) ≤ 4096
      · rw [if_pos (by omega), if_pos (by omega)]
        simp [List.range_succ_eq_map, Function.comp_def, Nat.add_comm, Nat.add_left_comm]
      · rw [if_neg (by omega), if_neg (by omega)]
        simp only [Except.error.injEq]; omega
    · rw [readChecked_error (by omega), if_neg (by omega)]
      simp only [Except.error.injEq]; omega

/-- A block write that leaves the address space writes nothing and reports the first such address. -/
theorem writeBlock_error {m : Memory} {a : Nat} {bs : List Byte} (h0 : bs ≠ []) (h : 4096 < a + bs.length) :
    m.writeBlock a bs = .error (max a 4096) := by
  induction bs generalizing m a with
  | nil => exact absurd rfl h0
  | cons b bs ih =>
    simp only [List.length_cons] at h
    by_cases ha : a < 4096
    · simp only [writeBlock, writeChecked, ha, if_true]
      have hne : bs ≠ [] := by rintro rfl; simp at h; omega
      rw [ih hne (by omega)]
      simp only [Except.error.injEq]; omega
    · simp only [writeBlock, writeChecked, ha, if_false, Except.error.injEq]; omega

/-- A block write inside the address space is the placing of its bytes. -/
theorem writeBlock_ok {m : Memory} {a : Nat} {bs : List Byte} (h : bs = [] ∨ a + bs.length ≤ 4096) :
    m.writeBlock a bs = .ok (m.place a bs) := by
  induction bs generalizing m a with
  | nil => rfl
  | cons b bs ih =>
    simp only [List.length_cons, reduceCtorEq, false_or] at h
    have ha : a < 4096 := by omega
    simp only [writeBlock, writeChecked, ha, if_true, place]
    exact ih (.inr (by omega))

/-- A block write keeps the canonical form. -/
theorem writeBlock_wf {m m' : Memory} {a : Nat} {bs : List Byte} (h : m.writeBlock a bs = .ok m')
    (hm : m.wf = true) : m'.wf = true := by
  by_cases hb : bs = [] ∨ a + bs.length ≤ 4096
  · rw [writeBlock_ok hb] at h
    cases h
    rcases hb with rfl | hb
    · exact hm
    · exact place_wf hb hm
  · push Not at hb
    rw [writeBlock_error hb.1 hb.2] at h
    cases h

/-- The memory of `State.reset` is in canonical form. -/
theorem reset_wf : State.reset.mem.wf = true := rfl

end Sys2Proof.Machine.Memory
end

