-- ==== Sys2Proof/Laws/State.lean ====
section
/-! SUPPORT. One lemma for each field and each named update of the state, so that no later proof unfolds
a record update. -/

namespace Sys2Proof.Machine.State

section Updates
variable (s : State)

@[simp] theorem setI_mem (v : Word) : (s.setI v).mem = s.mem := rfl
@[simp] theorem setI_x (v : Word) : (s.setI v).x = s.x := rfl
@[simp] theorem setI_I (v : Word) : (s.setI v).I = v := rfl
@[simp] theorem setI_pc (v : Word) : (s.setI v).pc = s.pc := rfl
@[simp] theorem setI_stack (v : Word) : (s.setI v).stack = s.stack := rfl
@[simp] theorem setI_DT (v : Word) : (s.setI v).DT = s.DT := rfl
@[simp] theorem setI_ST (v : Word) : (s.setI v).ST = s.ST := rfl
@[simp] theorem setI_fb (v : Word) : (s.setI v).fb = s.fb := rfl
@[simp] theorem setI_keys (v : Word) : (s.setI v).keys = s.keys := rfl
@[simp] theorem setI_status (v : Word) : (s.setI v).status = s.status := rfl
@[simp] theorem setI_cfg (v : Word) : (s.setI v).cfg = s.cfg := rfl
@[simp] theorem setI_pending (v : Word) : (s.setI v).pending = s.pending := rfl
@[simp] theorem setI_reg (v : Word) (r : Reg) : (s.setI v).reg r = s.reg r := rfl

@[simp] theorem setPc_mem (v : Word) : (s.setPc v).mem = s.mem := rfl
@[simp] theorem setPc_x (v : Word) : (s.setPc v).x = s.x := rfl
@[simp] theorem setPc_I (v : Word) : (s.setPc v).I = s.I := rfl
@[simp] theorem setPc_pc (v : Word) : (s.setPc v).pc = v := rfl
@[simp] theorem setPc_stack (v : Word) : (s.setPc v).stack = s.stack := rfl
@[simp] theorem setPc_DT (v : Word) : (s.setPc v).DT = s.DT := rfl
@[simp] theorem setPc_ST (v : Word) : (s.setPc v).ST = s.ST := rfl
@[simp] theorem setPc_fb (v : Word) : (s.setPc v).fb = s.fb := rfl
@[simp] theorem setPc_keys (v : Word) : (s.setPc v).keys = s.keys := rfl
@[simp] theorem setPc_status (v : Word) : (s.setPc v).status = s.status := rfl
@[simp] theorem setPc_cfg (v : Word) : (s.setPc v).cfg = s.cfg := rfl
@[simp] theorem setPc_pending (v : Word) : (s.setPc v).pending = s.pending := rfl
@[simp] theorem setPc_reg (v : Word) (r : Reg) : (s.setPc v).reg r = s.reg r := rfl

@[simp] theorem setDT_mem (v : Byte) : (s.setDT v).mem = s.mem := rfl
@[simp] theorem setDT_x (v : Byte) : (s.setDT v).x = s.x := rfl
@[simp] theorem setDT_I (v : Byte) : (s.setDT v).I = s.I := rfl
@[simp] theorem setDT_pc (v : Byte) : (s.setDT v).pc = s.pc := rfl
@[simp] theorem setDT_stack (v : Byte) : (s.setDT v).stack = s.stack := rfl
@[simp] theorem setDT_DT (v : Byte) : (s.setDT v).DT = v := rfl
@[simp] theorem setDT_ST (v : Byte) : (s.setDT v).ST = s.ST := rfl
@[simp] theorem setDT_fb (v : Byte) : (s.setDT v).fb = s.fb := rfl
@[simp] theorem setDT_keys (v : Byte) : (s.setDT v).keys = s.keys := rfl
@[simp] theorem setDT_status (v : Byte) : (s.setDT v).status = s.status := rfl
@[simp] theorem setDT_cfg (v : Byte) : (s.setDT v).cfg = s.cfg := rfl
@[simp] theorem setDT_pending (v : Byte) : (s.setDT v).pending = s.pending := rfl
@[simp] theorem setDT_reg (v : Byte) (r : Reg) : (s.setDT v).reg r = s.reg r := rfl

@[simp] theorem setST_mem (v : Byte) : (s.setST v).mem = s.mem := rfl
@[simp] theorem setST_x (v : Byte) : (s.setST v).x = s.x := rfl
@[simp] theorem setST_I (v : Byte) : (s.setST v).I = s.I := rfl
@[simp] theorem setST_pc (v : Byte) : (s.setST v).pc = s.pc := rfl
@[simp] theorem setST_stack (v : Byte) : (s.setST v).stack = s.stack := rfl
@[simp] theorem setST_DT (v : Byte) : (s.setST v).DT = s.DT := rfl
@[simp] theorem setST_ST (v : Byte) : (s.setST v).ST = v := rfl
@[simp] theorem setST_fb (v : Byte) : (s.setST v).fb = s.fb := rfl
@[simp] theorem setST_keys (v : Byte) : (s.setST v).keys = s.keys := rfl
@[simp] theorem setST_status (v : Byte) : (s.setST v).status = s.status := rfl
@[simp] theorem setST_cfg (v : Byte) : (s.setST v).cfg = s.cfg := rfl
@[simp] theorem setST_pending (v : Byte) : (s.setST v).pending = s.pending := rfl
@[simp] theorem setST_reg (v : Byte) (r : Reg) : (s.setST v).reg r = s.reg r := rfl

@[simp] theorem setStack_mem (v : List Word) : (s.setStack v).mem = s.mem := rfl
@[simp] theorem setStack_x (v : List Word) : (s.setStack v).x = s.x := rfl
@[simp] theorem setStack_I (v : List Word) : (s.setStack v).I = s.I := rfl
@[simp] theorem setStack_pc (v : List Word) : (s.setStack v).pc = s.pc := rfl
@[simp] theorem setStack_stack (v : List Word) : (s.setStack v).stack = v := rfl
@[simp] theorem setStack_DT (v : List Word) : (s.setStack v).DT = s.DT := rfl
@[simp] theorem setStack_ST (v : List Word) : (s.setStack v).ST = s.ST := rfl
@[simp] theorem setStack_fb (v : List Word) : (s.setStack v).fb = s.fb := rfl
@[simp] theorem setStack_keys (v : List Word) : (s.setStack v).keys = s.keys := rfl
@[simp] theorem setStack_status (v : List Word) : (s.setStack v).status = s.status := rfl
@[simp] theorem setStack_cfg (v : List Word) : (s.setStack v).cfg = s.cfg := rfl
@[simp] theorem setStack_pending (v : List Word) : (s.setStack v).pending = s.pending := rfl
@[simp] theorem setStack_reg (v : List Word) (r : Reg) : (s.setStack v).reg r = s.reg r := rfl

@[simp] theorem setMem_mem (v : Memory) : (s.setMem v).mem = v := rfl
@[simp] theorem setMem_x (v : Memory) : (s.setMem v).x = s.x := rfl
@[simp] theorem setMem_I (v : Memory) : (s.setMem v).I = s.I := rfl
@[simp] theorem setMem_pc (v : Memory) : (s.setMem v).pc = s.pc := rfl
@[simp] theorem setMem_stack (v : Memory) : (s.setMem v).stack = s.stack := rfl
@[simp] theorem setMem_DT (v : Memory) : (s.setMem v).DT = s.DT := rfl
@[simp] theorem setMem_ST (v : Memory) : (s.setMem v).ST = s.ST := rfl
@[simp] theorem setMem_fb (v : Memory) : (s.setMem v).fb = s.fb := rfl
@[simp] theorem setMem_keys (v : Memory) : (s.setMem v).keys = s.keys := rfl
@[simp] theorem setMem_status (v : Memory) : (s.setMem v).status = s.status := rfl
@[simp] theorem setMem_cfg (v : Memory) : (s.setMem v).cfg = s.cfg := rfl
@[simp] theorem setMem_pending (v : Memory) : (s.setMem v).pending = s.pending := rfl
@[simp] theorem setMem_reg (v : Memory) (r : Reg) : (s.setMem v).reg r = s.reg r := rfl

@[simp] theorem setFb_mem (v : Display) : (s.setFb v).mem = s.mem := rfl
@[simp] theorem setFb_x (v : Display) : (s.setFb v).x = s.x := rfl
@[simp] theorem setFb_I (v : Display) : (s.setFb v).I = s.I := rfl
@[simp] theorem setFb_pc (v : Display) : (s.setFb v).pc = s.pc := rfl
@[simp] theorem setFb_stack (v : Display) : (s.setFb v).stack = s.stack := rfl
@[simp] theorem setFb_DT (v : Display) : (s.setFb v).DT = s.DT := rfl
@[simp] theorem setFb_ST (v : Display) : (s.setFb v).ST = s.ST := rfl
@[simp] theorem setFb_fb (v : Display) : (s.setFb v).fb = v := rfl
@[simp] theorem setFb_keys (v : Display) : (s.setFb v).keys = s.keys := rfl
@[simp] theorem setFb_status (v : Display) : (s.setFb v).status = s.status := rfl
@[simp] theorem setFb_cfg (v : Display) : (s.setFb v).cfg = s.cfg := rfl
@[simp] theorem setFb_pending (v : Display) : (s.setFb v).pending = s.pending := rfl
@[simp] theorem setFb_reg (v : Display) (r : Reg) : (s.setFb v).reg r = s.reg r := rfl

@[simp] theorem setKeys_mem (v : Vector Bool 16) : (s.setKeys v).mem = s.mem := rfl
@[simp] theorem setKeys_x (v : Vector Bool 16) : (s.setKeys v).x = s.x := rfl
@[simp] theorem setKeys_I (v : Vector Bool 16) : (s.setKeys v).I = s.I := rfl
@[simp] theorem setKeys_pc (v : Vector Bool 16) : (s.setKeys v).pc = s.pc := rfl
@[simp] theorem setKeys_stack (v : Vector Bool 16) : (s.setKeys v).stack = s.stack := rfl
@[simp] theorem setKeys_DT (v : Vector Bool 16) : (s.setKeys v).DT = s.DT := rfl
@[simp] theorem setKeys_ST (v : Vector Bool 16) : (s.setKeys v).ST = s.ST := rfl
@[simp] theorem setKeys_fb (v : Vector Bool 16) : (s.setKeys v).fb = s.fb := rfl
@[simp] theorem setKeys_keys (v : Vector Bool 16) : (s.setKeys v).keys = v := rfl
@[simp] theorem setKeys_status (v : Vector Bool 16) : (s.setKeys v).status = s.status := rfl
@[simp] theorem setKeys_cfg (v : Vector Bool 16) : (s.setKeys v).cfg = s.cfg := rfl
@[simp] theorem setKeys_pending (v : Vector Bool 16) : (s.setKeys v).pending = s.pending := rfl
@[simp] theorem setKeys_reg (v : Vector Bool 16) (r : Reg) : (s.setKeys v).reg r = s.reg r := rfl

@[simp] theorem setStatus_mem (v : Status) : (s.setStatus v).mem = s.mem := rfl
@[simp] theorem setStatus_x (v : Status) : (s.setStatus v).x = s.x := rfl
@[simp] theorem setStatus_I (v : Status) : (s.setStatus v).I = s.I := rfl
@[simp] theorem setStatus_pc (v : Status) : (s.setStatus v).pc = s.pc := rfl
@[simp] theorem setStatus_stack (v : Status) : (s.setStatus v).stack = s.stack := rfl
@[simp] theorem setStatus_DT (v : Status) : (s.setStatus v).DT = s.DT := rfl
@[simp] theorem setStatus_ST (v : Status) : (s.setStatus v).ST = s.ST := rfl
@[simp] theorem setStatus_fb (v : Status) : (s.setStatus v).fb = s.fb := rfl
@[simp] theorem setStatus_keys (v : Status) : (s.setStatus v).keys = s.keys := rfl
@[simp] theorem setStatus_status (v : Status) : (s.setStatus v).status = v := rfl
@[simp] theorem setStatus_cfg (v : Status) : (s.setStatus v).cfg = s.cfg := rfl
@[simp] theorem setStatus_pending (v : Status) : (s.setStatus v).pending = s.pending := rfl
@[simp] theorem setStatus_reg (v : Status) (r : Reg) : (s.setStatus v).reg r = s.reg r := rfl

@[simp] theorem setPending_mem (v : List HostOp) : (s.setPending v).mem = s.mem := rfl
@[simp] theorem setPending_x (v : List HostOp) : (s.setPending v).x = s.x := rfl
@[simp] theorem setPending_I (v : List HostOp) : (s.setPending v).I = s.I := rfl
@[simp] theorem setPending_pc (v : List HostOp) : (s.setPending v).pc = s.pc := rfl
@[simp] theorem setPending_stack (v : List HostOp) : (s.setPending v).stack = s.stack := rfl
@[simp] theorem setPending_DT (v : List HostOp) : (s.setPending v).DT = s.DT := rfl
@[simp] theorem setPending_ST (v : List HostOp) : (s.setPending v).ST = s.ST := rfl
@[simp] theorem setPending_fb (v : List HostOp) : (s.setPending v).fb = s.fb := rfl
@[simp] theorem setPending_keys (v : List HostOp) : (s.setPending v).keys = s.keys := rfl
@[simp] theorem setPending_status (v : List HostOp) : (s.setPending v).status = s.status := rfl
@[simp] theorem setPending_cfg (v : List HostOp) : (s.setPending v).cfg = s.cfg := rfl
@[simp] theorem setPending_pending (v : List HostOp) : (s.setPending v).pending = v := rfl
@[simp] theorem setPending_reg (v : List HostOp) (r : Reg) : (s.setPending v).reg r = s.reg r := rfl

@[simp] theorem setRegs_mem (v : Vector Byte 16) : (s.setRegs v).mem = s.mem := rfl
@[simp] theorem setRegs_x (v : Vector Byte 16) : (s.setRegs v).x = v := rfl
@[simp] theorem setRegs_I (v : Vector Byte 16) : (s.setRegs v).I = s.I := rfl
@[simp] theorem setRegs_pc (v : Vector Byte 16) : (s.setRegs v).pc = s.pc := rfl
@[simp] theorem setRegs_stack (v : Vector Byte 16) : (s.setRegs v).stack = s.stack := rfl
@[simp] theorem setRegs_DT (v : Vector Byte 16) : (s.setRegs v).DT = s.DT := rfl
@[simp] theorem setRegs_ST (v : Vector Byte 16) : (s.setRegs v).ST = s.ST := rfl
@[simp] theorem setRegs_fb (v : Vector Byte 16) : (s.setRegs v).fb = s.fb := rfl
@[simp] theorem setRegs_keys (v : Vector Byte 16) : (s.setRegs v).keys = s.keys := rfl
@[simp] theorem setRegs_status (v : Vector Byte 16) : (s.setRegs v).status = s.status := rfl
@[simp] theorem setRegs_cfg (v : Vector Byte 16) : (s.setRegs v).cfg = s.cfg := rfl
@[simp] theorem setRegs_pending (v : Vector Byte 16) : (s.setRegs v).pending = s.pending := rfl
@[simp] theorem setRegs_reg (v : Vector Byte 16) (r : Reg) : (s.setRegs v).reg r = v[r] := rfl

@[simp] theorem setReg_mem (i : Reg) (v : Byte) : (s.setReg i v).mem = s.mem := rfl
@[simp] theorem setReg_x (i : Reg) (v : Byte) : (s.setReg i v).x = s.x.set i v := rfl
@[simp] theorem setReg_I (i : Reg) (v : Byte) : (s.setReg i v).I = s.I := rfl
@[simp] theorem setReg_pc (i : Reg) (v : Byte) : (s.setReg i v).pc = s.pc := rfl
@[simp] theorem setReg_stack (i : Reg) (v : Byte) : (s.setReg i v).stack = s.stack := rfl
@[simp] theorem setReg_DT (i : Reg) (v : Byte) : (s.setReg i v).DT = s.DT := rfl
@[simp] theorem setReg_ST (i : Reg) (v : Byte) : (s.setReg i v).ST = s.ST := rfl
@[simp] theorem setReg_fb (i : Reg) (v : Byte) : (s.setReg i v).fb = s.fb := rfl
@[simp] theorem setReg_keys (i : Reg) (v : Byte) : (s.setReg i v).keys = s.keys := rfl
@[simp] theorem setReg_status (i : Reg) (v : Byte) : (s.setReg i v).status = s.status := rfl
@[simp] theorem setReg_cfg (i : Reg) (v : Byte) : (s.setReg i v).cfg = s.cfg := rfl
@[simp] theorem setReg_pending (i : Reg) (v : Byte) : (s.setReg i v).pending = s.pending := rfl

theorem setReg_reg (i j : Reg) (v : Byte) : (s.setReg i v).reg j = if j = i then v else s.reg j := by
  by_cases h : j = i
  · subst h; simp [reg]
  · have h' : i.val ≠ j.val := fun e => h (Fin.ext e.symm)
    simp [reg, h, Vector.getElem_set_ne _ _ h']

@[simp] theorem setReg_reg_self (i : Reg) (v : Byte) : (s.setReg i v).reg i = v := by
  simp [setReg_reg]

@[simp] theorem setReg_reg_of_ne (i j : Reg) (v : Byte) (h : j ≠ i) : (s.setReg i v).reg j = s.reg j := by
  simp [setReg_reg, h]

@[simp] theorem advance_mem : s.advance.mem = s.mem := rfl
@[simp] theorem advance_x : s.advance.x = s.x := rfl
@[simp] theorem advance_I : s.advance.I = s.I := rfl
@[simp] theorem advance_pc : s.advance.pc = s.pc + 2 := rfl
@[simp] theorem advance_stack : s.advance.stack = s.stack := rfl
@[simp] theorem advance_DT : s.advance.DT = s.DT := rfl
@[simp] theorem advance_ST : s.advance.ST = s.ST := rfl
@[simp] theorem advance_fb : s.advance.fb = s.fb := rfl
@[simp] theorem advance_keys : s.advance.keys = s.keys := rfl
@[simp] theorem advance_status : s.advance.status = s.status := rfl
@[simp] theorem advance_cfg : s.advance.cfg = s.cfg := rfl
@[simp] theorem advance_pending : s.advance.pending = s.pending := rfl
@[simp] theorem advance_reg (r : Reg) : s.advance.reg r = s.reg r := rfl

@[simp] theorem skip_mem : s.skip.mem = s.mem := rfl
@[simp] theorem skip_x : s.skip.x = s.x := rfl
@[simp] theorem skip_I : s.skip.I = s.I := rfl
@[simp] theorem skip_pc : s.skip.pc = s.pc + 2 := rfl
@[simp] theorem skip_stack : s.skip.stack = s.stack := rfl
@[simp] theorem skip_DT : s.skip.DT = s.DT := rfl
@[simp] theorem skip_ST : s.skip.ST = s.ST := rfl
@[simp] theorem skip_fb : s.skip.fb = s.fb := rfl
@[simp] theorem skip_keys : s.skip.keys = s.keys := rfl
@[simp] theorem skip_status : s.skip.status = s.status := rfl
@[simp] theorem skip_cfg : s.skip.cfg = s.cfg := rfl
@[simp] theorem skip_pending : s.skip.pending = s.pending := rfl
@[simp] theorem skip_reg (r : Reg) : s.skip.reg r = s.reg r := rfl

@[simp] theorem skipIf_mem (c : Bool) : (s.skipIf c).mem = s.mem := by cases c <;> rfl
@[simp] theorem skipIf_x (c : Bool) : (s.skipIf c).x = s.x := by cases c <;> rfl
@[simp] theorem skipIf_I (c : Bool) : (s.skipIf c).I = s.I := by cases c <;> rfl
@[simp] theorem skipIf_pc (c : Bool) : (s.skipIf c).pc = if c then s.pc + 2 else s.pc := by cases c <;> rfl
@[simp] theorem skipIf_stack (c : Bool) : (s.skipIf c).stack = s.stack := by cases c <;> rfl
@[simp] theorem skipIf_DT (c : Bool) : (s.skipIf c).DT = s.DT := by cases c <;> rfl
@[simp] theorem skipIf_ST (c : Bool) : (s.skipIf c).ST = s.ST := by cases c <;> rfl
@[simp] theorem skipIf_fb (c : Bool) : (s.skipIf c).fb = s.fb := by cases c <;> rfl
@[simp] theorem skipIf_keys (c : Bool) : (s.skipIf c).keys = s.keys := by cases c <;> rfl
@[simp] theorem skipIf_status (c : Bool) : (s.skipIf c).status = s.status := by cases c <;> rfl
@[simp] theorem skipIf_cfg (c : Bool) : (s.skipIf c).cfg = s.cfg := by cases c <;> rfl
@[simp] theorem skipIf_pending (c : Bool) : (s.skipIf c).pending = s.pending := by cases c <;> rfl
@[simp] theorem skipIf_reg (c : Bool) (r : Reg) : (s.skipIf c).reg r = s.reg r := by cases c <;> rfl

@[simp] theorem raise_mem (k : FaultKind) (a : Word) (w i : Option Word) : (s.raise k a w i).mem = s.mem := rfl
@[simp] theorem raise_x (k : FaultKind) (a : Word) (w i : Option Word) : (s.raise k a w i).x = s.x := rfl
@[simp] theorem raise_I (k : FaultKind) (a : Word) (w i : Option Word) : (s.raise k a w i).I = s.I := rfl
@[simp] theorem raise_pc (k : FaultKind) (a : Word) (w i : Option Word) : (s.raise k a w i).pc = s.pc := rfl
@[simp] theorem raise_stack (k : FaultKind) (a : Word) (w i : Option Word) : (s.raise k a w i).stack = s.stack := rfl
@[simp] theorem raise_DT (k : FaultKind) (a : Word) (w i : Option Word) : (s.raise k a w i).DT = s.DT := rfl
@[simp] theorem raise_ST (k : FaultKind) (a : Word) (w i : Option Word) : (s.raise k a w i).ST = s.ST := rfl
@[simp] theorem raise_fb (k : FaultKind) (a : Word) (w i : Option Word) : (s.raise k a w i).fb = s.fb := rfl
@[simp] theorem raise_keys (k : FaultKind) (a : Word) (w i : Option Word) : (s.raise k a w i).keys = s.keys := rfl
@[simp] theorem raise_status (k : FaultKind) (a : Word) (w i : Option Word) : (s.raise k a w i).status = .halted ⟨k, a, w, i⟩ := rfl
@[simp] theorem raise_cfg (k : FaultKind) (a : Word) (w i : Option Word) : (s.raise k a w i).cfg = s.cfg := rfl
@[simp] theorem raise_pending (k : FaultKind) (a : Word) (w i : Option Word) : (s.raise k a w i).pending = s.pending := rfl
@[simp] theorem raise_reg (k : FaultKind) (a : Word) (w i : Option Word) (r : Reg) : (s.raise k a w i).reg r = s.reg r := rfl

end Updates

end Sys2Proof.Machine.State
end

