-- ==== Sys2Proof/Laws/Ops.lean ====
section
/-! SUPPORT. What each shared operation of the meanings does, said once. -/

namespace Sys2Proof.Machine

/-! ### Registers -/

/-- A block load into the register file: `bs[r - j]` where the block reaches, otherwise as before. -/
theorem loadRegs_get (v : Vector Byte 16) (j : Nat) (bs : List Byte) (r : Nat) (hr : r < 16) :
    (loadRegs v j bs)[r] = if j ≤ r ∧ r < j + bs.length then bs.getD (r - j) 0 else v[r] := by
  induction bs generalizing v j with
  | nil => rw [loadRegs, if_neg (by simp only [List.length_nil]; omega)]
  | cons b bs ih =>
    rw [loadRegs, ih]
    simp only [List.length_cons]
    by_cases h1 : r = j
    · subst h1
      simp
    · have h3 : j ≠ r := fun e => h1 e.symm
      by_cases h2 : j + 1 ≤ r ∧ r < j + 1 + bs.length
      · rw [if_pos h2, if_pos (by omega)]
        have : r - j = (r - (j + 1)) + 1 := by omega
        rw [this, List.getD_cons_succ]
      · rw [if_neg h2, if_neg (by omega)]
        simp [h3]

/-- V0..VX are X + 1 bytes. -/
@[simp] theorem regRange_length (s : State) (x : Reg) : (regRange s x).length = x.val + 1 := by
  simp [regRange]

/-- Byte `j` of the range is V`j`. -/
theorem regRange_getD (s : State) (x : Reg) (j : Nat) (hj : j ≤ x.val) :
    (regRange s x).getD j 0 = s.reg ⟨j, by omega⟩ := by
  simp [regRange, State.reg, List.getD, Nat.lt_succ_of_le hj]

/-! ### Taking a fault (R282, R283) -/

theorem raiseIn_eq (i : Instr) (k : FaultKind) (info : Option Word) (s : State) :
    raiseIn i k info s = .next (s.raise k (s.pc - 2) (some (encode i)) info) := rfl

/-- A memory access either goes on with its value or raises `AddressOutOfRange`. -/
theorem afterAccess_cases {i : Instr} {s : State} {r : Except Nat α} {k : α → Result} {o : Result}
    (h : afterAccess i s r k = o) :
    (∃ v, r = .ok v ∧ k v = o) ∨
      ∃ a, r = .error a ∧ raiseIn i .addressOutOfRange (some (BitVec.ofNat 16 a)) s = o := by
  cases r with
  | ok v => exact .inl ⟨v, rfl, h⟩
  | error a => exact .inr ⟨a, rfl, h⟩

/-! ### Fetch (R76) -/

/-- Everything a fetch can do. -/
theorem fetch_eq (s : State) : fetch s =
    if s.pc.toNat + 1 < 4096 then .ok (wordOfBytes (s.mem.read s.pc.toNat) (s.mem.read (s.pc.toNat + 1)))
    else .error (max s.pc.toNat 4096) := by
  by_cases h : s.pc.toNat + 1 < 4096
  · simp [fetch, Memory.readChecked, h, show s.pc.toNat < 4096 by omega]
  · by_cases h' : s.pc.toNat < 4096
    · have : s.pc.toNat = 4095 := by omega
      simp [fetch, Memory.readChecked, this]
    · have h1 : max s.pc.toNat 4096 = s.pc.toNat := by omega
      simp [fetch, Memory.readChecked, h, h', h1]

/-! ### Keys -/

theorem keyOf_eq_some {v : Byte} {k : Key} : keyOf v = some k ↔ v.toNat = k.val := by
  unfold keyOf
  split_ifs with h
  · simp [Fin.ext_iff]
  · simp; omega

theorem keyOf_eq_none {v : Byte} : keyOf v = none ↔ 16 ≤ v.toNat := by
  unfold keyOf
  split_ifs with h <;> simp <;> omega

/-! ### Construction and host operations -/

theorem fontBytes_length (f : Font) : (fontBytes f).length = 80 := by
  have h : ∀ l : List Glyph, ((l.map Vector.toList).flatten).length = 5 * l.length := by
    intro l
    induction l with
    | nil => rfl
    | cons g l ih => simp only [List.map_cons, List.flatten_cons, List.length_append, ih, List.length_cons,
        Vector.length_toList]; omega
  rw [fontBytes, h]
  simp

/-- The memory a construction leaves is in canonical form. -/
theorem construct_wf {rom : List Byte} {cfg : Cfg} {s : State} (h : construct rom cfg = .next s) :
    s.mem.wf = true := by
  unfold construct at h
  split_ifs at h with hr
  injection h with h
  subst h
  have hf := fontBytes_length cfg.font
  exact Memory.place_wf (by simp only [Config.romBase, Config.romMax] at *; omega)
    (Memory.place_wf (by simp only [Config.fontBase]; omega) rfl)

theorem countDown_toNat (t : Byte) : (countDown t).toNat = t.toNat - 1 := by
  unfold countDown
  split_ifs with h
  · subst h; rfl
  · have : t.toNat ≠ 0 := fun e => h (BitVec.eq_of_toNat_eq (by simpa using e))
    have := t.isLt
    rw [BitVec.toNat_sub]
    simp
    omega

/-- A construction with a ROM that fits is the reset state with the font and the ROM placed. -/
theorem construct_of_le {rom : List Byte} (cfg : Cfg) (h : rom.length ≤ Config.romMax) :
    construct rom cfg = .next { State.reset with
      mem := Memory.place (Memory.place [] Config.fontBase (fontBytes cfg.font)) Config.romBase rom, cfg := cfg } := by
  rw [construct, if_neg (Nat.not_lt.2 h)]

/-- A construction with a longer ROM is refused. -/
theorem construct_of_gt {rom : List Byte} (cfg : Cfg) (h : rom.length > Config.romMax) :
    construct rom cfg = .refused (.romTooLarge rom.length) := by
  rw [construct, if_pos h]

@[simp] theorem statusQuery_status (s : State) : (statusQuery s).status = s.status := rfl
@[simp] theorem statusQuery_I (s : State) : (statusQuery s).I = s.I := rfl
@[simp] theorem statusQuery_sp (s : State) : (statusQuery s).sp = s.stack.length := rfl

@[simp] theorem tickTimers_DT (s : State) : (tickTimers s).DT = countDown s.DT := rfl
@[simp] theorem tickTimers_ST (s : State) : (tickTimers s).ST = countDown s.ST := rfl

/-! ### The step -/

/-- A Step of a running core with no request pending, and where it stops. -/
theorem step_idle (s : State) (h : s.pending = []) : step s = stepOp s := by
  simp [step, h]

theorem step_request (s : State) {op : HostOp} {rest : List HostOp} (h : s.pending = op :: rest) :
    step s = serve op (s.setPending rest) := by
  simp [step, h]

/-- A Step of a running core, requested or not, runs one instruction from the state it starts from. -/
theorem step_of_stepsFrom {s u : State} (h : StepsFrom s u) : u.status = .running ∧ step s = runInstruction u := by
  obtain ⟨hr, ⟨hp, rfl⟩ | ⟨rest, hp, rfl⟩⟩ := h
  · exact ⟨hr, by rw [step_idle u hp, stepOp, hr]⟩
  · refine ⟨hr, ?_⟩
    rw [step_request s hp, serve, serveStep, State.setPending_status, hr]

/-- Everything one Step of a running core can do: fault in the fetch, fault in the decode, or run the execute phase
of the decoded instruction. -/
theorem runInstruction_cases (s : State) :
    (¬ FetchFits s ∧ runInstruction s = raiseFetch (max s.pc.toNat 4096) s) ∨
    (FetchFits s ∧ decode (fetchedWord s) = .error (.noRow (fetchedWord s)) ∧
      runInstruction s = raiseDecode (fetchedWord s) s) ∨
    ∃ i, FetchFits s ∧ decode (fetchedWord s) = .ok i ∧ runInstruction s = exec i s.advance := by
  by_cases hf : FetchFits s
  · have hw : fetch s = .ok (fetchedWord s) := by rw [fetch_eq, if_pos hf]; rfl
    cases hd : decode (fetchedWord s) with
    | error e =>
      obtain rfl := decode_error hd
      exact .inr (.inl ⟨hf, rfl, by rw [runInstruction, hw]; simp only [hd]⟩)
    | ok i => exact .inr (.inr ⟨i, hf, rfl, by rw [runInstruction, hw]; simp only [hd]⟩)
  · exact .inl ⟨hf, by rw [runInstruction, fetch_eq, if_neg hf]⟩

end Sys2Proof.Machine
end

