-- ==== Sys2Proof/Laws/PerInstr.lean ====
section
/-! SUPPORT. One lemma for each instruction: the listing of a well-formed instruction passes the check of
R108 and R114 and is that instruction again, so no operand's range refuses a value the field admits. -/

namespace Sys2Proof.Laws.ListingRoundTrip

/-- The instruction's row and operands pass the check and give the instruction back. -/
def Statement (i : Instr) : Prop := i.raw.check = .ok i

theorem reg_ok (x : Reg) : RawInstr.reg x.val = .ok x := by simp [RawInstr.reg]
theorem nibble_ok (n : Fin 16) : RawInstr.nibble n.val = .ok n := by simp [RawInstr.nibble]
theorem byte_ok (k : Byte) : RawInstr.byte k.toNat = .ok k := by
  simp [RawInstr.byte, show k.toNat < 256 from k.isLt]
theorem address_ok (a : Addr12) : RawInstr.address a.toNat = .ok a := by
  simp [RawInstr.address, show a.toNat < 4096 from a.isLt]

theorem ofNnn (f : Addr12 → Instr) (r : Nat) (a : Addr12) : RawInstr.withNnn f ⟨r, [a.toNat]⟩ = .ok (f a) := by
  simp [RawInstr.withNnn, address_ok, Except.map]
theorem ofXkk (f : Reg → Byte → Instr) (r : Nat) (x : Reg) (k : Byte) :
    RawInstr.withXkk f ⟨r, [x.val, k.toNat]⟩ = .ok (f x k) := by
  simp [RawInstr.withXkk, reg_ok, byte_ok, Except.map, Except.bind]
theorem ofXy (f : Reg → Reg → Instr) (r : Nat) (x y : Reg) :
    RawInstr.withXy f ⟨r, [x.val, y.val]⟩ = .ok (f x y) := by
  simp [RawInstr.withXy, reg_ok, Except.map, Except.bind]
theorem ofXyn (f : Reg → Reg → Fin 16 → Instr) (r : Nat) (x y n : Fin 16) :
    RawInstr.withXyn f ⟨r, [x.val, y.val, n.val]⟩ = .ok (f x y n) := by
  simp [RawInstr.withXyn, reg_ok, nibble_ok, Except.map, Except.bind]
theorem ofX (f : Reg → Instr) (r : Nat) (x : Reg) : RawInstr.withX f ⟨r, [x.val]⟩ = .ok (f x) := by
  simp [RawInstr.withX, reg_ok, Except.map]

theorem cls : Statement .cls := rfl
theorem ret : Statement .ret := rfl
theorem jp (nnn : Addr12) : Statement (.jp nnn) := ofNnn _ 3 nnn
theorem call (nnn : Addr12) : Statement (.call nnn) := ofNnn _ 4 nnn
theorem seImm (x : Reg) (kk : Byte) : Statement (.seImm x kk) := ofXkk _ 5 x kk
theorem sneImm (x : Reg) (kk : Byte) : Statement (.sneImm x kk) := ofXkk _ 6 x kk
theorem seReg (x y : Reg) : Statement (.seReg x y) := ofXy _ 7 x y
theorem ldImm (x : Reg) (kk : Byte) : Statement (.ldImm x kk) := ofXkk _ 8 x kk
theorem addImm (x : Reg) (kk : Byte) : Statement (.addImm x kk) := ofXkk _ 9 x kk
theorem ldReg (x y : Reg) : Statement (.ldReg x y) := ofXy _ 10 x y
theorem orReg (x y : Reg) : Statement (.orReg x y) := ofXy _ 11 x y
theorem andReg (x y : Reg) : Statement (.andReg x y) := ofXy _ 12 x y
theorem xorReg (x y : Reg) : Statement (.xorReg x y) := ofXy _ 13 x y
theorem addReg (x y : Reg) : Statement (.addReg x y) := ofXy _ 14 x y
theorem sub (x y : Reg) : Statement (.sub x y) := ofXy _ 15 x y
theorem shr (x y : Reg) : Statement (.shr x y) := ofXy _ 16 x y
theorem subn (x y : Reg) : Statement (.subn x y) := ofXy _ 17 x y
theorem shl (x y : Reg) : Statement (.shl x y) := ofXy _ 18 x y
theorem sneReg (x y : Reg) : Statement (.sneReg x y) := ofXy _ 19 x y
theorem ldI (nnn : Addr12) : Statement (.ldI nnn) := ofNnn _ 20 nnn
theorem drw (x y : Reg) (n : Fin 16) : Statement (.drw x y n) := ofXyn _ 21 x y n
theorem skp (x : Reg) : Statement (.skp x) := ofX _ 22 x
theorem sknp (x : Reg) : Statement (.sknp x) := ofX _ 23 x
theorem ldVxDt (x : Reg) : Statement (.ldVxDt x) := ofX _ 24 x
theorem ldDtVx (x : Reg) : Statement (.ldDtVx x) := ofX _ 25 x
theorem ldStVx (x : Reg) : Statement (.ldStVx x) := ofX _ 26 x
theorem addI (x : Reg) : Statement (.addI x) := ofX _ 27 x
theorem ldF (x : Reg) : Statement (.ldF x) := ofX _ 28 x
theorem ldB (x : Reg) : Statement (.ldB x) := ofX _ 29 x
theorem store (x : Reg) : Statement (.store x) := ofX _ 30 x
theorem load (x : Reg) : Statement (.load x) := ofX _ 31 x

end Sys2Proof.Laws.ListingRoundTrip
end

