-- ==== Sys2Proof/Tests/Slice0.lean ====
section
/-! SUPPORT. The model's own tests: the words of the opcode map written out bit by bit, the checks of a
listing, small one-step tests whose expected values are the vectors of `95_test_vectors.md` (named FD, CF, LI,
AL, IM, DS, KT, BT there), and a witness for the hypotheses of every statement that has some. -/

namespace Sys2Proof.Tests

open Sys2Proof Sys2Proof.Machine

/-! ### Decoding (fields by R101 and R102, rows by R108) -/

theorem test_decode_cls : decode 0b0000000011100000#16 = .ok .cls := by decide
theorem test_decode_ret : decode 0b0000000011101110#16 = .ok .ret := by decide
theorem test_decode_jp : decode 0b0001101010111100#16 = .ok (.jp 0xABC) := by decide
theorem test_decode_call : decode 0b0010001000010110#16 = .ok (.call 0x216) := by decide
theorem test_decode_seImm : decode 0b0011001101000010#16 = .ok (.seImm 3 0x42) := by decide
theorem test_decode_sneImm : decode 0b0100001101000010#16 = .ok (.sneImm 3 0x42) := by decide
theorem test_decode_seReg : decode 0b0101000100100000#16 = .ok (.seReg 1 2) := by decide
theorem test_decode_ldImm : decode 0b0110101000010010#16 = .ok (.ldImm 0xA 0x12) := by decide
theorem test_decode_addImm : decode 0b0111000011111110#16 = .ok (.addImm 0 0xFE) := by decide
theorem test_decode_ldReg : decode 0b1000000100100000#16 = .ok (.ldReg 1 2) := by decide
theorem test_decode_orReg : decode 0b1000000100100001#16 = .ok (.orReg 1 2) := by decide
theorem test_decode_andReg : decode 0b1000000100100010#16 = .ok (.andReg 1 2) := by decide
theorem test_decode_xorReg : decode 0b1000000100100011#16 = .ok (.xorReg 1 2) := by decide
theorem test_decode_addReg : decode 0b1000101010110100#16 = .ok (.addReg 0xA 0xB) := by decide
theorem test_decode_sub : decode 0b1000000100100101#16 = .ok (.sub 1 2) := by decide
theorem test_decode_shr : decode 0b1000000100100110#16 = .ok (.shr 1 2) := by decide
theorem test_decode_subn : decode 0b1000000100100111#16 = .ok (.subn 1 2) := by decide
theorem test_decode_shl : decode 0b1000000100101110#16 = .ok (.shl 1 2) := by decide
theorem test_decode_sneReg : decode 0b1001000100100000#16 = .ok (.sneReg 1 2) := by decide
theorem test_decode_ldI : decode 0b1010001100000001#16 = .ok (.ldI 0x301) := by decide
theorem test_decode_drw : decode 0b1101000100100011#16 = .ok (.drw 1 2 3) := by decide
theorem test_decode_skp : decode 0b1110001010011110#16 = .ok (.skp 2) := by decide
theorem test_decode_sknp : decode 0b1110001010100001#16 = .ok (.sknp 2) := by decide
theorem test_decode_ldVxDt : decode 0b1111001100000111#16 = .ok (.ldVxDt 3) := by decide
theorem test_decode_ldDtVx : decode 0b1111001100010101#16 = .ok (.ldDtVx 3) := by decide
theorem test_decode_ldStVx : decode 0b1111010000011000#16 = .ok (.ldStVx 4) := by decide
theorem test_decode_addI : decode 0b1111001000011110#16 = .ok (.addI 2) := by decide
theorem test_decode_ldF : decode 0b1111000100101001#16 = .ok (.ldF 1) := by decide
theorem test_decode_ldB : decode 0b1111001000110011#16 = .ok (.ldB 2) := by decide
theorem test_decode_store : decode 0b1111000101010101#16 = .ok (.store 1) := by decide
theorem test_decode_load : decode 0b1111001101100101#16 = .ok (.load 3) := by decide

/-- FD1–FD13: the reserved words. -/
theorem test_decode_reserved :
    ([0x0000, 0x0123, 0x00E1, 0x5121, 0x9121, 0x8008, 0x800F, 0xB123, 0xC1FF, 0xF00A, 0xE0A0, 0xF030,
      0xFFFF] : List Word).all (fun w => decide (decode w = .error (.noRow w))) = true := by decide

theorem test_decode_truncated : decodeBytes [0x00] = .error .truncated := by decide

/-- The high byte comes first (R76, FD17). -/
theorem test_table_word : decodeTableWord 16 0x6012 = some (.ldImm 0 0x12) := by decide

/-! ### A listing's ill-formed instructions are refused (R114) -/

theorem test_form_no_such_row : (RawInstr.mk 32 []).check = .error (.noSuchRow 32) := by decide
theorem test_form_operand_count : (RawInstr.mk 10 [1]).check = .error (.operandCount 10 1) := by decide
theorem test_form_register_range : (RawInstr.mk 10 [1, 16]).check = .error (.registerRange 16) := by decide
theorem test_form_byte_range : (RawInstr.mk 8 [1, 256]).check = .error (.byteRange 256) := by decide
theorem test_form_address_range : (RawInstr.mk 3 [4096]).check = .error (.addressRange 4096) := by decide
theorem test_form_nibble_range : (RawInstr.mk 21 [1, 2, 16]).check = .error (.nibbleRange 16) := by decide
theorem test_form_accepts : (RawInstr.mk 21 [1, 2, 15]).check = .ok (.drw 1 2 15) := by decide

/-! ### Running one instruction -/

/-- The reset state with pc = 0x300, where the vectors place the word. -/
def at300 : State := State.reset.setPc 0x300

/-- What a reader sees after the step that runs one word. -/
def after (s : State) (w : Nat) (see : State → α) : Option α :=
  match step (s.withFetchWord 16 w) with
  | .next t => some (see t)
  | _ => none

/-- The state whose memory holds some bytes from an address up. -/
def withBytes (s : State) (a : Nat) (bs : List Byte) : State := s.setMem (Memory.place s.mem a bs)

/-- The state with another configuration. -/
def withCfg (s : State) (c : Cfg) : State := { s with cfg := c }

/-- A call stack of `n` entries. -/
def withDepth (n : Nat) : State := at300.setStack (List.replicate n 0x206)

/-- The first `n` bytes from an address up. -/
def bytesAt (a n : Nat) (t : State) : List Byte := (List.range n).map fun j => t.mem.read (a + j)

/-- The state with two registers set. -/
def withXy (x : Reg) (u : Byte) (y : Reg) (v : Byte) : State := (at300.setReg x u).setReg y v

/-- V0 and VF, the two results of an ALU instruction on V0. -/
def v0vf (t : State) : Byte × Byte := (t.reg 0, t.reg VF)

/-! #### Control transfer -/

theorem test_ret : after (at300.setStack [0x206]) 0x00EE (fun t => (t.pc, t.stack)) = some (0x206, []) := by
  decide  -- CF2
theorem test_ret_empty : after at300 0x00EE (fun t => (t.pc, t.status)) =
    some (0x302, .halted ⟨.stackUnderflow, 0x300, some 0x00EE, none⟩) := by decide  -- CF1
theorem test_jp : after at300 0x1ABC State.pc = some 0xABC := by decide  -- CF3
theorem test_call : after (at300.setPc 0xFFE) 0x2300 (fun t => (t.pc, t.stack)) = some (0x300, [0x1000]) := by
  decide  -- CF6
theorem test_call_full : after (withDepth 16) 0x2216 (fun t => (t.pc, t.sp, t.status)) =
    some (0x302, 16, .halted ⟨.stackOverflow, 0x300, some 0x2216, none⟩) := by decide  -- CF5
theorem test_seImm : after (at300.setReg 3 0x42) 0x3342 State.pc = some 0x304 := by decide  -- CF7
theorem test_seImm_not : after (at300.setReg 3 0x41) 0x3342 State.pc = some 0x302 := by decide  -- CF8
theorem test_seImm_top : after (at300.setPc 0xFFE) 0x3000 State.pc = some 0x1002 := by decide  -- CF15
theorem test_sneImm : after (at300.setReg 3 0x42) 0x4342 State.pc = some 0x302 := by decide  -- CF9
theorem test_sneImm_skips : after at300 0x4342 State.pc = some 0x304 := by decide  -- CF10
theorem test_seReg : after (withXy 1 7 2 7) 0x5120 State.pc = some 0x304 := by decide  -- CF11
theorem test_sneReg : after (withXy 1 7 2 8) 0x9120 State.pc = some 0x304 := by decide  -- CF13
theorem test_sneReg_same : after at300 0x9110 State.pc = some 0x302 := by decide  -- CF14

/-! #### Load, add immediate and the ALU -/

theorem test_ldImm : after at300 0x6A12 (fun t => (t.reg 0xA, t.pc)) = some (0x12, 0x302) := by decide  -- LI1
theorem test_addImm : after (withXy 0 0xFF VF 0x55) 0x7001 v0vf = some (0x00, 0x55) := by decide  -- LI3
theorem test_addImm_vf : after (at300.setReg VF 0xFF) 0x7F01 v0vf = some (0x00, 0x00) := by decide  -- LI4
theorem test_ldReg : after (at300.setReg 1 0x33) 0x8010 v0vf = some (0x33, 0) := by decide  -- AL1
theorem test_orReg : after ((withXy 0 0x0F 1 0xF0).setReg VF 7) 0x8011 v0vf = some (0xFF, 7) := by decide  -- AL2
theorem test_andReg : after (withXy 0 0x3C 1 0x0F) 0x8012 v0vf = some (0x0C, 0) := by decide  -- AL3
theorem test_xorReg : after (withXy 0 0x3C 1 0x0F) 0x8013 v0vf = some (0x33, 0) := by decide  -- AL4
theorem test_addReg : after (withXy 0 0xFF 1 0x01) 0x8014 v0vf = some (0x00, 1) := by decide  -- AL6
theorem test_addReg_vf : after (withXy VF 0xFF 1 0x01) 0x8F14 v0vf = some (0x00, 1) := by decide  -- AL8
theorem test_sub : after (withXy 0 3 1 5) 0x8015 v0vf = some (0xFE, 0) := by decide  -- AL11
theorem test_sub_strict :
    after (withCfg (withXy 0 5 1 5) { defaultCfg with subFlagStrict := true }) 0x8015 v0vf = some (0x00, 0) := by
  decide  -- AL13; AL12 is its default
theorem test_subn : after (withXy 0 5 1 3) 0x8017 v0vf = some (0xFE, 0) := by decide  -- AL16
theorem test_subn_equal : after (withXy 0 4 1 4) 0x8017 v0vf = some (0x00, 1) := by decide  -- AL17
theorem test_shr : after (withXy 0 0x05 1 0xFF) 0x8016 v0vf = some (0x02, 1) := by decide  -- AL19, AL20
theorem test_shr_copy :
    after (withCfg (withXy 0 0xFF 1 0x04) { defaultCfg with useCopyShift := true }) 0x8016 v0vf =
      some (0x02, 0) := by decide  -- AL21
theorem test_shl : after (at300.setReg 0 0x81) 0x801E v0vf = some (0x02, 1) := by decide  -- AL23
theorem test_shl_vf : after (at300.setReg VF 0x80) 0x8F0E v0vf = some (0x00, 1) := by decide  -- AL25

/-! #### Index register and memory -/

theorem test_ldI : after at300 0xA301 State.I = some 0x301 := by decide  -- IM14
theorem test_addI : after ((at300.setI 0x0FF0).setReg 2 0x20) 0xF21E (fun t => (t.I, t.reg VF)) =
    some (0x1010, 1) := by decide  -- IM15
theorem test_addI_wraps : after ((at300.setI 0xFFFF).setReg 2 2) 0xF21E (fun t => (t.I, t.reg VF)) =
    some (0x0001, 0) := by decide  -- IM18
theorem test_ldF : after (at300.setReg 1 0x1A) 0xF129 State.I = some 0x082 := by decide  -- IM12
theorem test_ldB : after ((at300.setI 0x400).setReg 0 156) 0xF033 (bytesAt 0x400 3) = some [1, 5, 6] := by
  decide  -- IM1
theorem test_ldB_baseline :
    after (withCfg ((withBytes at300 0x400 [9, 9, 9]).setReg 0 42 |>.setI 0x400)
      { defaultCfg with bcdMode := .baseline }) 0xF033 (bytesAt 0x400 3) = some [4, 2, 9] := by decide  -- IM3
theorem test_store : after ((withXy 0 1 1 2).setI 0x400) 0xF155 (bytesAt 0x400 3) = some [1, 2, 0] := by
  decide  -- IM10
theorem test_store_outside : after ((withXy 0 1 1 2).setI 0xFFF) 0xF155 (fun t => (bytesAt 0xFFF 1 t, t.status)) =
    some ([0], .halted ⟨.addressOutOfRange, 0x300, some 0xF155, some 0x1000⟩) := by decide  -- IM20
theorem test_load : after ((withBytes at300 0x400 [1, 5, 6, 7]).setI 0x400) 0xF265
    (fun t => (t.reg 0, t.reg 1, t.reg 2, t.reg 3)) = some (1, 5, 6, 0) := by decide  -- IM21
theorem test_load_outside : after ((at300.setReg 0 7).setI 0xFFF) 0xF165 (fun t => (t.reg 0, t.status)) =
    some (7, .halted ⟨.addressOutOfRange, 0x300, some 0xF165, some 0x1000⟩) := by decide  -- IM23

/-! #### Display -/

/-- The lit columns of a row. -/
def litRow (r : Nat) (t : State) : List Nat := (List.range 64).filter fun c => t.fb.cell c r

/-- The state with some cells lit. -/
def withLit (s : State) (cells : List (Nat × Nat)) : State :=
  s.setFb (cells.foldl (fun d p => d.setCell p.1 p.2 true) s.fb)

theorem test_cls : after (withLit at300 [(0, 0), (63, 31)]) 0x00E0
    (fun t => (t.fb.cell 0 0, t.fb.cell 63 31)) = some (false, false) := by decide  -- DS1
theorem test_drw_collision :
    after (withLit ((withBytes at300 0x400 [0xFF]).setI 0x400) [(3, 0)]) 0xD011
      (fun t => (litRow 0 t, t.reg VF)) = some ([0, 1, 2, 4, 5, 6, 7], 1) := by
  decide +kernel  -- DS4
theorem test_drw_wraps_start :
    after ((withBytes (withXy 0 66 1 33) 0x400 [0x81, 0x81]).setI 0x400) 0xD012
      (fun t => (litRow 0 t, litRow 1 t, litRow 2 t)) = some ([], [2, 9], [2, 9]) := by decide  -- DS7

/-! #### Keypad and timers -/

theorem test_skp : after (keyDown 5 (at300.setReg 2 5)) 0xE29E State.pc = some 0x304 := by decide  -- KT1
theorem test_skp_number : after (at300.setReg 2 0x10) 0xE29E State.status =
    some (.halted ⟨.keyOutOfRange, 0x300, some 0xE29E, some 0x10⟩) := by decide  -- KT5
theorem test_sknp : after (at300.setReg 2 5) 0xE2A1 State.pc = some 0x304 := by decide  -- KT3
theorem test_sknp_down : after (keyDown 5 (at300.setReg 2 5)) 0xE2A1 State.pc = some 0x302 := by decide  -- KT4
theorem test_ldVxDt : after (at300.setDT 0x3C) 0xF307 (fun t => (t.reg 3, t.DT)) = some (0x3C, 0x3C) := by
  decide  -- KT7
theorem test_ldDtVx : after (at300.setReg 3 0x3C) 0xF315 State.DT = some 0x3C := by decide  -- KT8
theorem test_ldStVx : after (at300.setReg 4 2) 0xF418 (fun t => (t.ST, soundOn t)) = some (2, true) := by
  decide  -- KT9

/-! #### The host's operations, faults and construction -/

/-- KT6. -/
theorem test_key_events :
    (firstPressed (keyDown 0xA State.reset), isDown (keyDown 0xA State.reset) 0xB,
      firstPressed (keyUp 0xA (keyDown 0xA State.reset))) = (some 0xA, false, none) := by decide

/-- KT12: a tick is served on a halted core. -/
theorem test_tick_halted :
    (match step (((State.reset.setST 5).setStatus (.halted ⟨.stackUnderflow, 0, none, none⟩)).setPending [.tickTimers])
      with
      | .next t => some (t.ST, t.DT, t.pending)
      | _ => none) = some (4, 0, []) := by decide

/-- FD15: a fetch outside memory leaves pc alone. -/
theorem test_fetch_outside :
    (match step (State.reset.setPc 0x1002) with
      | .next t => some (t.pc, t.status)
      | _ => none) = some (0x1002, .halted ⟨.addressOutOfRange, 0x1002, none, some 0x1002⟩) := by decide

/-- BT3: the first Step after construction with a ROM of 0 bytes. -/
theorem test_empty_rom :
    (match step State.reset with
      | .next t => some (t.pc, t.status)
      | _ => none) = some (0x202, .halted ⟨.decodeFailure, 0x200, some 0x0000, none⟩) := by decide

/-- BT4: glyph 0 lies at 0x050. -/
theorem test_font : bytesAt 0x050 5 State.reset = [0xF0, 0x90, 0x90, 0x90, 0xF0] := by decide

/-- A requested construction loads the ROM and keeps the requests after it (R330; log entry 9). -/
theorem test_construct :
    (match step (State.reset.setPending [.construct [0x22, 0x00] defaultCfg, .step]) with
      | .next t => some (bytesAt 0x200 2 t, t.pc, t.pending)
      | _ => none) = some ([0x22, 0x00], 0x200, [.step]) := by decide

/-- A requested construction revives a halted core and discards what it held (R286, R332). -/
theorem test_construct_revives :
    (match step ((((State.reset.setReg 3 7).setStack [0x206]).setStatus
        (.halted ⟨.stackUnderflow, 0, none, none⟩)).setPending [.construct [] defaultCfg]) with
      | .next t => some (t.reg 3, t.stack, t.status)
      | _ => none) = some (0, [], .running) := by decide

/-- The status query gives the record, I and the depth (R42, R43). -/
theorem test_status_query :
    after ((withDepth 15).setI 0x1010) 0x2216 statusQuery = some ⟨.running, 0x1010, 16⟩ := by decide

/-- The signals of a halted core (R311). -/
theorem test_signals :
    (let g := signals (State.reset.setStatus (.halted ⟨.keyOutOfRange, 0x300, some 0xE29E, some 0x10⟩)) 0 0 0
     (g.halted, g.faultKind, g.faultAt, g.faultWord, g.faultInfo)) = (true, 5, 0x300, 0xE29E, 0x10) := by decide

/-! ### Witnesses

For every statement of `Certificates/Slice0/Obligations.lean` with hypotheses, states and operands that meet
them together, at the boundary of each clause. -/

/-- A halted core. -/
def halted : State := State.reset.setStatus (.halted ⟨.decodeFailure, 0x1FE, some 0, none⟩)

theorem witness_EncodeOfDecodeIsTheWord : decode 0x8AB4 = .ok (.addReg 0xA 0xB) := by decide

theorem witness_CallPushesReturnAddress : (withDepth 15).stack.length < 16 ∧ (withDepth 0).stack.length < 16 := by
  decide

theorem witness_ReturnPopsIntoPc :
    (at300.setStack [0x206]).stack = 0x206 :: [] ∧ (withDepth 16).stack = 0x206 :: List.replicate 15 0x206 := by
  decide

theorem witness_StackLimitsTakeTheirFaults : (withDepth 16).stack.length = 16 ∧ at300.stack = [] := by decide

theorem witness_ReturnUndoesCall : (withDepth 15).stack.length < 16 ∧
    ∃ t u : State, exec (.call 0x216) (withDepth 15) = .next t ∧ u.stack = t.stack :=
  ⟨by decide, _, _, rfl, rfl⟩

theorem witness_BcdWritesItsDigits :
    let fits := at300.setI 0xFFD
    let outside := at300.setI 0xFFE
    let none := withCfg (at300.setI 0x2000) { defaultCfg with bcdMode := .baseline }
    fits.mem.wf = true ∧ BlockFits fits (decimalDigits fits.cfg.bcdMode (fits.reg 0).toNat).length ∧
      outside.mem.wf = true ∧
      ¬ BlockFits outside (decimalDigits outside.cfg.bcdMode (outside.reg 0).toNat).length ∧
      none.mem.wf = true ∧ BlockFits none (decimalDigits none.cfg.bcdMode (none.reg 0).toNat).length :=
  ⟨by decide, .inr (by decide), by decide, by decide, by decide, .inl (by simp [decimalDigits, withCfg, at300,
    State.setI, State.setPc, State.reset, State.reg])⟩

theorem witness_StoreWritesV0ToVx :
    (at300.setI 0xFFE).mem.wf = true ∧ BlockFits (at300.setI 0xFFE) ((1 : Reg).val + 1) ∧
      (at300.setI 0xFFF).mem.wf = true ∧ ¬ BlockFits (at300.setI 0xFFF) ((1 : Reg).val + 1) := by decide

theorem witness_LoadReadsV0ToVx :
    BlockFits (at300.setI 0xFF0) ((15 : Reg).val + 1) ∧ ¬ BlockFits (at300.setI 0xFF1) ((15 : Reg).val + 1) ∧
      (¬ (2 : Reg) ≤ 1 ∧ (1 : Reg) ≤ 1) := by decide

theorem witness_LoadAfterStoreRestores :
    (at300.setI 0xFFE).mem.wf = true ∧ BlockFits (at300.setI 0xFFE) ((1 : Reg).val + 1) ∧
      ∃ t u : State, exec (.store 1) (at300.setI 0xFFE) = .next t ∧ u.mem = t.mem ∧ u.I = t.I :=
  ⟨by decide, by decide, _, _, rfl, rfl, rfl⟩

theorem witness_StoreIsSeenByTheNextFetch :
    0 < (1 : Reg).val ∧ (at300.setI 0x300).mem.wf = true ∧ BlockFits (at300.setI 0x300) ((1 : Reg).val + 1) ∧
      ∃ t, exec (.store 1) (at300.setI 0x300) = .next t ∧ t.pc.toNat = (at300.setI 0x300).I.toNat + 0 :=
  ⟨by decide, by decide, by decide, _, rfl, by decide⟩

theorem witness_CanonicalMemoryIsDeterminedByItsBytes :
    let m : Memory := [(0x200, 0x12), (0xFFF, 0x34)]
    m.wf = true ∧ ∀ a < 4096, m.read a = m.read a := ⟨by decide, fun _ _ => rfl⟩

theorem witness_DrawXorsSpriteAndSetsCollision :
    let clipped := (at300.setReg 1 31).setI 0xFFF
    let empty := at300.setI 0xFFFF
    let lit := withLit ((withBytes at300 0x400 [0x01]).setI 0x400) [(7, 0)]
    BlockFits clipped (spriteRows clipped 1 2) ∧
      (BlockFits empty (spriteRows empty 0 0) ∧ ¬ Collides empty 0 0 0) ∧
      (BlockFits lit (spriteRows lit 1 1) ∧ Collides lit 0 1 1) := by
  refine ⟨.inr (by decide), ⟨.inl (by decide), ?_⟩, .inr (by decide), 7, by decide, 0, by decide, by decide,
    by decide⟩
  rintro ⟨c, -, r, -, h, -⟩
  simp [spriteBit] at h
  omega

theorem witness_DrawOutsideMemoryTakesTheFault :
    ¬ BlockFits ((at300.setReg 1 30).setI 0xFFF) (spriteRows ((at300.setReg 1 30).setI 0xFFF) 1 2) := by decide

/-- The second state may be the one after the first drawing. -/
theorem witness_DrawingTwiceRestoresTheDisplay :
    let s := (withBytes at300 0x400 [0xFF]).setI 0x400
    BlockFits s (spriteRows s 0 1) ∧
      (match exec (.drw 0 0 1) s with
        | .next t => decide (t.mem = s.mem ∧ t.I = s.I ∧ t.reg 0 = s.reg 0)
        | _ => false) = true := ⟨.inr (by decide), by decide⟩

theorem witness_KeySkipsTestTheKeyInVx :
    ((at300.setReg 2 0xF).reg 2).toNat = (15 : Key).val ∧ (keyDown 15 (at300.setReg 2 0xF)).keys[(15 : Key)] = true ∧
      (at300.setReg 2 0xF).keys[(15 : Key)] = false := by decide

theorem witness_KeyNumberAboveFTakesTheFault : 0x0F < ((at300.setReg 2 0x10).reg 2).toNat := by decide

theorem witness_TicksAndKeyEventsAreServedAlsoWhenHalted :
    (halted.setPending [.tickTimers]).pending = .tickTimers :: [] ∧
      (halted.setPending [.keyDown 15, .step]).pending = .keyDown 15 :: [.step] ∧
      (halted.setPending [.keyUp 0]).pending = .keyUp 0 :: [] := by decide

theorem witness_StatusQueryReadsStatusIAndDepth :
    (withDepth 15).stack.length < 16 ∧ (withDepth 0).stack.length < 16 ∧ (withDepth 1).stack ≠ [] ∧
      (withDepth 16).stack ≠ [] := by decide

theorem witness_StepRunsTheDecodedInstruction :
    let s := (State.reset.setPc 0xFFE).withFetchWord 16 0x6A12
    s.status = .running ∧ FetchFits s ∧ decode (fetchedWord s) = .ok (.ldImm 0xA 0x12) ∧ s.pending = [] ∧
      (s.setPending [.step]).pending = .step :: [] := by decide

theorem witness_PlacedWordRunsNext :
    (State.reset.setPc 0xFFE).mem.wf = true ∧ FetchFits (State.reset.setPc 0xFFE) ∧
      decode 0x6A12 = .ok (.ldImm 0xA 0x12) ∧
      (halted.setPc 0xFFF).mem.wf = true ∧ ¬ FetchFits (halted.setPc 0xFFF) := by decide

/-- A state that requests a Step, and the state that Step starts from. -/
def requesting (s : State) : State := s.setPending [.step, .tickTimers]

/-- The state left when that request is taken. -/
def requested (s : State) : State := (requesting s).setPending [.tickTimers]

theorem stepsFrom_idle {s : State} (h : Idle s) : StepsFrom s s := ⟨h.1, .inl ⟨h.2, rfl⟩⟩

theorem stepsFrom_requested {s : State} (h : s.status = .running) : StepsFrom (requesting s) (requested s) :=
  ⟨h, .inr ⟨_, rfl, rfl⟩⟩

/-- Unrequested at 0xFFF and requested at 0x1000. -/
theorem witness_FetchOutsideMemoryTakesTheFault :
    let s := State.reset.setPc 0xFFF
    let r := State.reset.setPc 0x1000
    (StepsFrom s s ∧ ¬ FetchFits s) ∧ StepsFrom (requesting r) (requested r) ∧ ¬ FetchFits (requested r) :=
  ⟨⟨stepsFrom_idle (by decide), by decide⟩, stepsFrom_requested (by decide), by decide⟩

theorem witness_ReservedWordTakesDecodeFailure :
    (StepsFrom State.reset State.reset ∧ FetchFits State.reset ∧ ReservedWord (fetchedWord State.reset)) ∧
      StepsFrom (requesting State.reset) (requested State.reset) ∧ FetchFits (requested State.reset) ∧
      ReservedWord (fetchedWord (requested State.reset)) :=
  ⟨⟨stepsFrom_idle (by decide), by decide, .inl (by decide)⟩, stepsFrom_requested (by decide), by decide,
    .inl (by decide)⟩

theorem witness_FaultChangesOnlyStatusAndPc :
    let s := State.reset.setPc 0xFFF
    (∃ t r, StepsFrom (requesting State.reset) (requested State.reset) ∧
        step (requesting State.reset) = .next t ∧ t.status = .halted r ∧ FetchFits (requested State.reset)) ∧
      ∃ t r, StepsFrom s s ∧ step s = .next t ∧ t.status = .halted r ∧ ¬ FetchFits s :=
  ⟨⟨_, _, stepsFrom_requested (by decide), rfl, rfl, by decide⟩, _, _, stepsFrom_idle (by decide), rfl, rfl,
    by decide⟩

theorem witness_FaultRecordNamesTheInstruction :
    let s := (State.reset.setPc 0xFFE).withFetchWord 16 0x00EE
    (∃ t r, StepsFrom s s ∧ step s = .next t ∧ t.status = .halted r ∧ FetchFits s) ∧
      ∃ t r, StepsFrom (requesting (s.setPc 0xFFF)) (requested (s.setPc 0xFFF)) ∧
        step (requesting (s.setPc 0xFFF)) = .next t ∧ t.status = .halted r ∧
        ¬ FetchFits (requested (s.setPc 0xFFF)) :=
  ⟨⟨_, _, stepsFrom_idle (by decide), rfl, rfl, by decide⟩, _, _, stepsFrom_requested (by decide), rfl, rfl,
    by decide⟩

theorem witness_HaltedCoreStaysHalted :
    halted.status = .halted ⟨.decodeFailure, 0x1FE, some 0, none⟩ ∧ halted.pending = [] ∧
      (halted.setPending [.step]).pending = .step :: [] ∧
      (∃ t, step (halted.setPending [.tickTimers]) = .next t) ∧
      ∃ t, step (halted.setPending [.construct [] defaultCfg]) = .next t :=
  ⟨by decide, by decide, by decide, ⟨_, rfl⟩, _, rfl⟩

theorem witness_EveryInstructionAnswersANextState :
    StepsFrom State.reset State.reset ∧ StepsFrom (requesting State.reset) (requested State.reset) :=
  ⟨stepsFrom_idle (by decide), stepsFrom_requested (by decide)⟩

/-- Each clause has an instruction that does write the component. -/
theorem witness_ComponentsHaveOnlyTheirNamedWriters :
    (∃ t, exec (.call 0x216) at300 = .next t ∧ t.stack ≠ at300.stack ∧ t.pc ≠ at300.pc) ∧
      (∃ t, exec (.ldI 0x301) at300 = .next t ∧ t.I ≠ at300.I) ∧
      (∃ t, exec (.ldDtVx 0) (at300.setReg 0 1) = .next t ∧ t.DT ≠ (at300.setReg 0 1).DT) ∧
      (∃ t, exec (.ldStVx 0) (at300.setReg 0 1) = .next t ∧ t.ST ≠ (at300.setReg 0 1).ST) ∧
      (∃ t, exec .cls (withLit at300 [(63, 31)]) = .next t ∧ t.fb ≠ (withLit at300 [(63, 31)]).fb) ∧
      (∃ t, exec (.store 0) (at300.setReg 0 1) = .next t ∧ t.mem ≠ (at300.setReg 0 1).mem) ∧
      (∃ t, exec (.ldImm 0 1) at300 = .next t ∧ t.x ≠ at300.x) ∧
      ∃ t, exec .ret at300 = .next t ∧ t.status ≠ at300.status :=
  ⟨⟨_, rfl, by decide⟩, ⟨_, rfl, by decide⟩, ⟨_, rfl, by decide⟩, ⟨_, rfl, by decide⟩, ⟨_, rfl, by decide⟩,
    ⟨_, rfl, by decide⟩, ⟨_, rfl, by decide⟩, _, rfl, by decide⟩

theorem witness_InstructionsWriteOnlyTheirRegisters :
    ∃ t, exec (.addReg 0 1) (withXy 0 0xFF 1 1) = .next t ∧ t.reg VF ≠ (withXy 0 0xFF 1 1).reg VF :=
  ⟨_, rfl, by decide⟩

theorem witness_SoundTimerIsNeverObserved :
    (∃ t, exec (.ldStVx 0) at300 = .next t) ∧ ∃ t, exec (.ldVxDt 0) at300 = .next t := ⟨⟨_, rfl⟩, _, rfl⟩

theorem witness_ConfigurationIsReadOnly :
    (∃ t, step State.reset = .next t ∧ t.cfg = State.reset.cfg) ∧
      (∃ t, step (State.reset.setPending [.step]) = .next t) ∧
      ∃ t, step (State.reset.setPending [.construct [] { defaultCfg with useCopyShift := true }]) = .next t ∧
        t.cfg ≠ State.reset.cfg := ⟨⟨_, rfl, rfl⟩, ⟨_, rfl⟩, _, rfl, by decide⟩

theorem witness_ConstructGivesTheResetState :
    ([] : List Byte).length ≤ 3584 ∧ (List.replicate 3584 (0xAB : Byte)).length ≤ 3584 :=
  ⟨Nat.zero_le _, List.length_replicate.le⟩

/-- On a halted core, at both sides of the ROM's limit. -/
theorem witness_ConstructionIsServedWhateverTheState :
    let rom : List Byte := List.replicate 3584 0xAB
    let long : List Byte := List.replicate 3585 0xAB
    ((halted.setPending [.construct rom defaultCfg, .step]).pending = .construct rom defaultCfg :: [.step] ∧
      rom.length ≤ 3584) ∧
    (halted.setPending [.construct long defaultCfg]).pending = .construct long defaultCfg :: [] ∧
      long.length > 3584 :=
  ⟨⟨rfl, List.length_replicate.le⟩, rfl, List.length_replicate.ge⟩

theorem witness_OversizedRomIsRefused :
    (List.replicate 3585 (0xAB : Byte)).length > 3584 ∧ (List.replicate 3584 (0xAB : Byte)).length = 3584 :=
  ⟨List.length_replicate.ge, List.length_replicate⟩

theorem witness_InvariantHoldsAfterConstruction : ∃ s, construct [0x22, 0x00] defaultCfg = .next s := ⟨_, rfl⟩

theorem witness_EveryStepKeepsTheInvariant :
    State.reset.Inv ∧ (∃ t, step State.reset = .next t) ∧ State.Inv (withDepth 16) ∧
      State.Inv ((at300.setPc 0x1002).setStack [0x1000]) :=
  ⟨by decide, ⟨_, rfl⟩, by decide, by decide⟩

theorem witness_EveryRunKeepsTheInvariant :
    State.reset.Inv ∧ ∃ t, core.run 1 State.reset = .next t := ⟨by decide, _, rfl⟩

end Sys2Proof.Tests
end

/-! ## The configuration is read-only (O47) -/

namespace Sys2Proof.Machine

/-! ### The parts of the state that no execute phase writes -/

/-- The keypad, the configuration and the host's requests are the same in two states: the parts that only the host
changes (R42, R49; the requests are log entry 8). -/
structure KeepsHostParts (s t : State) : Prop where
  keys : t.keys = s.keys
  cfg : t.cfg = s.cfg
  pending : t.pending = s.pending

theorem keepsHostParts_skipIf (s : State) (c : Bool) : KeepsHostParts s (s.skipIf c) :=
  ⟨s.skipIf_keys c, s.skipIf_cfg c, s.skipIf_pending c⟩

theorem raiseIn_keepsHostParts {i : Instr} {kind : FaultKind} {info : Option Word} {s t : State}
    (h : raiseIn i kind info s = .next t) : KeepsHostParts s t := by
  cases h; exact ⟨rfl, rfl, rfl⟩

/-- An instruction with a memory access keeps the host's parts when its continuation does. -/
theorem afterAccess_keepsHostParts {α : Type} {i : Instr} {s t : State} {r : Except Nat α}
    {k : α → Result} (hk : ∀ v, k v = .next t → KeepsHostParts s t)
    (h : afterAccess i s r k = .next t) : KeepsHostParts s t := by
  obtain ⟨v, -, hv⟩ | ⟨a, -, ha⟩ := afterAccess_cases h
  · exact hk v hv
  · exact raiseIn_keepsHostParts ha

theorem skipOnKey_keepsHostParts {i : Instr} {x : Reg} {wanted : Bool} {s t : State}
    (h : skipOnKey i x wanted s = .next t) : KeepsHostParts s t := by
  unfold skipOnKey at h
  split at h
  · exact raiseIn_keepsHostParts h
  · cases h; exact keepsHostParts_skipIf s _

theorem execRet_keepsHostParts {s t : State} (h : execRet s = .next t) : KeepsHostParts s t := by
  unfold execRet at h
  split at h
  · exact raiseIn_keepsHostParts h
  · cases h; exact ⟨rfl, rfl, rfl⟩

theorem execCall_keepsHostParts {nnn : Addr12} {s t : State} (h : execCall nnn s = .next t) :
    KeepsHostParts s t := by
  unfold execCall at h
  split at h
  · exact raiseIn_keepsHostParts h
  · cases h; exact ⟨rfl, rfl, rfl⟩

theorem execAddI_keepsHostParts {x : Reg} {s t : State} (h : execAddI x s = .next t) : KeepsHostParts s t := by
  cases h
  split <;> exact ⟨rfl, rfl, rfl⟩

/-- No instruction writes the keypad, the configuration or the host's requests. -/
theorem exec_keepsHostParts {i : Instr} {s t : State} (h : exec i s = .next t) : KeepsHostParts s t := by
  cases i
  case ret => exact execRet_keepsHostParts h
  case call => exact execCall_keepsHostParts h
  case addI => exact execAddI_keepsHostParts h
  case skp | sknp => exact skipOnKey_keepsHostParts h
  case seImm | sneImm | seReg | sneReg => cases h; exact keepsHostParts_skipIf s _
  case drw | ldB | store | load =>
    refine afterAccess_keepsHostParts (fun v hv => ?_) h
    cases hv; exact ⟨rfl, rfl, rfl⟩
  all_goals cases h; exact ⟨rfl, rfl, rfl⟩

/-! ### The step -/

/-- A Step of a running core keeps the host's parts, whether it faults or runs its instruction (R120). -/
theorem runInstruction_keepsHostParts {s t : State} (h : runInstruction s = .next t) : KeepsHostParts s t := by
  obtain ⟨-, hr⟩ | ⟨-, -, hr⟩ | ⟨i, -, -, hr⟩ := runInstruction_cases s
  · cases hr.symm.trans h; exact ⟨rfl, rfl, rfl⟩
  · cases hr.symm.trans h; exact ⟨rfl, rfl, rfl⟩
  · obtain ⟨hkeys, hcfg, hpending⟩ := exec_keepsHostParts (hr.symm.trans h)
    exact ⟨hkeys, hcfg, hpending⟩

theorem stepOp_keepsHostParts {s t : State} (h : stepOp s = .next t) : KeepsHostParts s t := by
  unfold stepOp at h
  split at h
  · exact runInstruction_keepsHostParts h
  · cases h

theorem serveStep_keepsHostParts {s t : State} (h : serveStep s = .next t) : KeepsHostParts s t := by
  unfold serveStep at h
  split at h
  · exact runInstruction_keepsHostParts h
  · cases h; exact ⟨rfl, rfl, rfl⟩

/-! ### Construction -/

theorem construct_cfg {rom : List Byte} {cfg : Cfg} {s : State} (h : construct rom cfg = .next s) :
    s.cfg = cfg := by
  unfold construct at h
  split at h
  · cases h
  · cases h; rfl

/-- A served construction is the constructed core with the requests behind it. -/
theorem serve_construct_next {rom : List Byte} {cfg : Cfg} {s t : State}
    (h : serve (.construct rom cfg) s = .next t) :
    ∃ c, construct rom cfg = .next c ∧ t = c.setPending s.pending := by
  cases hc : construct rom cfg with
  | next c =>
    simp only [serve, hc] at h
    cases h; exact ⟨c, rfl, rfl⟩
  | fault | refused => simp [serve, hc] at h

/-- Settles O47, by cases on the oldest request: a construction answers with its own configuration, and nothing else
that a step does writes it. -/
theorem configurationIsReadOnly : Obligations.ConfigurationIsReadOnly := by
  intro s t h
  cases hp : s.pending with
  | nil => exact (stepOp_keepsHostParts (step_idle s hp ▸ h)).cfg
  | cons op rest =>
    rw [step_request s hp] at h
    cases op with
    | construct rom cfg =>
      obtain ⟨c, hc, rfl⟩ := serve_construct_next h
      exact (construct_cfg hc : c.cfg = cfg)
    | step => exact (serveStep_keepsHostParts h).cfg
    | tickTimers | keyDown k | keyUp k => cases h; rfl

end Sys2Proof.Machine

/-! ## The jump (O6) -/

namespace Sys2Proof

/-- The words 1nnn are the row of `JP nnn` (R108). -/
theorem decode_packNnn_jp (nnn : Addr12) : decode (packNnn 0x1#4 nnn) = .ok (.jp nnn) := by
  unfold decode
  rw [op_packNnn, nnn_packNnn]
  rfl

end Sys2Proof

namespace Sys2Proof.Machine

@[simp] theorem target_toNat (nnn : Addr12) : (target nnn).toNat = nnn.toNat :=
  BitVec.toNat_setWidth_of_le (by decide)

/-- A write of pc leaves every other component as it was. -/
theorem frame_setPc (s : State) (v : Word) : Frame [.pc] s (s.setPc v) := by
  intro p hp
  cases p
  case pc => exact absurd (List.mem_singleton_self _) hp
  case mem | regs => exact fun _ => rfl
  all_goals exact rfl

/-- The execute phase of `JP nnn` is one write of pc (R142). -/
theorem exec_jp (nnn : Addr12) (s : State) : exec (.jp nnn) s = .next (s.setPc (target nnn)) := rfl

/-- Settles O6: the word is the packed form of `JP nnn`, whose execute phase only writes pc. -/
theorem jumpSetsPc : Obligations.JumpSetsPc := fun nnn s =>
  ⟨decode_packNnn_jp nnn, s.setPc (target nnn), exec_jp nnn s, target_toNat nnn, frame_setPc s (target nnn)⟩

end Sys2Proof.Machine

/-! ## Loads of the index register (O18) -/

namespace Sys2Proof

/-- The words Annn are the row of `LD I, nnn` (R108). -/
theorem decode_packNnn_ldI (nnn : Addr12) : decode (packNnn 0xA#4 nnn) = .ok (.ldI nnn) := by
  unfold decode
  rw [op_packNnn, nnn_packNnn]
  rfl

/-- The words Fxkk are decoded by their trailing byte (R106). -/
theorem decode_packXkk_F (x : Reg) (kk : Byte) : decode (packXkk 0xF#4 x kk) = decodeF (packXkk 0xF#4 x kk) := by
  unfold decode
  rw [op_packXkk]
  rfl

/-- The words Fx29 are the row of `LD F, Vx` (R108). -/
theorem decode_packXkk_ldF (x : Reg) : decode (packXkk 0xF#4 x 0x29#8) = .ok (.ldF x) := by
  rw [decode_packXkk_F]
  unfold decodeF
  rw [kk_packXkk, x_packXkk]
  rfl

end Sys2Proof

namespace Sys2Proof.Machine

/-- A write of I leaves every other component as it was. -/
theorem frame_setI (s : State) (v : Word) : Frame [.I] s (s.setI v) := by
  intro p hp
  cases p
  case I => exact absurd (List.mem_singleton_self _) hp
  case mem | regs => exact fun _ => rfl
  all_goals exact rfl

/-- The execute phase of `LD I, nnn` is one write of I (R210). -/
theorem exec_ldI (nnn : Addr12) (s : State) : exec (.ldI nnn) s = .next (s.setI (target nnn)) := rfl

/-- The execute phase of `LD F, Vx` is one write of I (R212). -/
theorem exec_ldF (x : Reg) (s : State) : exec (.ldF x) s = .next (s.setI (glyphAddress (s.reg x))) := rfl

/-- The mask 0x0F keeps the value modulo 16 (R212). -/
theorem lowNibble_toNat (v : Byte) : (v &&& 0x0F#8).toNat = v.toNat % 16 :=
  Nat.and_two_pow_sub_one_eq_mod v.toNat 4

/-- The glyph's address does not wrap: the last glyph lies at 0x09B (R212). -/
theorem glyphAddress_toNat (v : Byte) : (glyphAddress v).toNat = 0x050 + 5 * (v.toNat % 16) := by
  rw [glyphAddress, lowNibble_toNat, BitVec.toNat_ofNat]
  exact Nat.mod_eq_of_lt (by simp only [Config.fontBase]; omega)

/-- Settles O18: both words are packed forms and both execute phases only write I; a low nibble of at most 15
bounds the glyph's address. -/
theorem loadIndexAndFontAddress : Obligations.LoadIndexAndFontAddress := by
  intro x nnn s
  have hglyph := glyphAddress_toNat (s.reg x)
  have hnibble : (s.reg x).toNat % 16 < 16 := Nat.mod_lt _ (by decide)
  refine ⟨decode_packNnn_ldI nnn, decode_packXkk_ldF x,
    ⟨s.setI (target nnn), exec_ldI nnn s, target_toNat nnn, frame_setI s _⟩,
    s.setI (glyphAddress (s.reg x)), exec_ldF x s, hglyph, ?_, ?_, frame_setI s _⟩
  · rw [State.setI_I]; omega
  · rw [State.setI_I]; omega

end Sys2Proof.Machine

/-! ## Clearing the display (O26) -/

namespace Sys2Proof

/-- The word 00E0 is the row of `CLS` (R108). -/
theorem decode_clsWord : decode 0x00E0#16 = .ok .cls := by decide

end Sys2Proof

namespace Sys2Proof.Machine

/-- Every cell of the 64 by 32 grid of the blank display is unlit (R241). -/
theorem Display.getElem_blank (c : Fin 64) (r : Fin 32) : Display.blank[c][r] = false :=
  (Display.cell_eq_getElem Display.blank c.isLt r.isLt).symm.trans (Display.cell_blank c r)

/-- A write of the display leaves every other component as it was. -/
theorem frame_setFb (s : State) (d : Display) : Frame [.fb] s (s.setFb d) := by
  intro p hp
  cases p
  case fb => exact absurd (List.mem_singleton_self _) hp
  case mem | regs => exact fun _ => rfl
  all_goals exact rfl

/-- The execute phase of `CLS` is one write of the blank display (R241). -/
theorem exec_cls (s : State) : exec .cls s = .next (s.setFb Display.blank) := rfl

/-- Settles O26: the execute phase of `CLS` only writes the display, and what it writes has no lit cell. -/
theorem clsClearsEveryCell : Obligations.ClsClearsEveryCell :=
  ⟨decode_clsWord, fun s =>
    ⟨s.setFb Display.blank, exec_cls s, Display.getElem_blank, frame_setFb s Display.blank⟩⟩

end Sys2Proof.Machine

/-! ## The keypad queries (O35) -/

namespace Sys2Proof.Machine

theorem allKeys_eq_finRange : allKeys = List.finRange 16 := by decide

/-- The scan of `allKeys` is the library's search through `Fin 16` in ascending order (R307). -/
theorem firstPressed_eq_find? (s : State) : firstPressed s = Fin.find? (isDown s) := by
  rw [firstPressed, allKeys_eq_finRange, Fin.find?_eq_find?_finRange]

theorem firstPressed_eq_some_iff (s : State) (k : Key) :
    firstPressed s = some k ↔ isDown s k = true ∧ ∀ j < k, isDown s j = false := by
  rw [firstPressed_eq_find?, Fin.find?_eq_some_iff]

theorem firstPressed_eq_none_iff (s : State) : firstPressed s = none ↔ ∀ k : Key, isDown s k = false := by
  rw [firstPressed_eq_find?, Fin.find?_eq_none_iff]

/-- Settles O35: `FirstPressed` searches the keys in ascending order, so what it finds is the lowest key that
`IsDown` answers true for. -/
theorem firstPressedIsTheLowestKeyDown : Obligations.FirstPressedIsTheLowestKeyDown := fun s =>
  ⟨fun _ => rfl, firstPressed_eq_some_iff s, firstPressed_eq_none_iff s⟩

end Sys2Proof.Machine

/-! ## The timer tick (O33) -/

namespace Sys2Proof.Machine

/-- A tick leaves every component but the two timers as it was (R291). -/
theorem frame_tickTimers (s : State) : Frame [.DT, .ST] s (tickTimers s) := by
  intro p hp
  cases p
  case DT | ST => exact absurd (by decide) hp
  case mem | regs => exact fun _ => rfl
  all_goals exact rfl

/-- Settles O33: each timer takes its own `countDown`, which on numbers is the subtraction that stops at 0. -/
theorem tickCountsBothTimersDown : Obligations.TickCountsBothTimersDown := fun s =>
  ⟨countDown_toNat s.DT, countDown_toNat s.ST, frame_tickTimers s⟩

end Sys2Proof.Machine

/-! ## The ROM of a construction (O49) -/

namespace Sys2Proof.Machine

/-- The font placed on the cleared memory is in canonical form. -/
theorem place_font_wf (f : Font) : (Memory.place [] Config.fontBase (fontBytes f)).wf = true :=
  Memory.place_wf (by rw [fontBytes_length]; decide) rfl

/-- A construction with a ROM that fits answers a core that holds the ROM from 0x200 up (R330). -/
theorem construct_read_rom {rom : List Byte} (cfg : Cfg) (h : rom.length ≤ 3584) :
    ∃ s, construct rom cfg = .next s ∧
      ∀ a, 0x200 ≤ a → a < 0x200 + rom.length → s.mem.read a = rom.getD (a - 0x200) 0 := by
  refine ⟨_, construct_of_le cfg h, fun a hlo hhi => ?_⟩
  have hroom : 0x200 + rom.length ≤ 4096 := by omega
  exact (Memory.read_place hroom (place_font_wf cfg.font) a).trans (if_pos ⟨hlo, hhi⟩)

/-- Settles O49: a ROM that fits is read back over its whole length, and 3584 bytes from 0x200 end at 0xFFF. -/
theorem oversizedRomIsRefused : Obligations.OversizedRomIsRefused := by
  intro rom cfg
  refine ⟨construct_of_gt cfg, fun hlen => ?_⟩
  obtain ⟨s, hs, hread⟩ := construct_read_rom cfg hlen.le
  exact ⟨s, hs, fun a hlo hhi => hread a hlo (by omega)⟩

end Sys2Proof.Machine

/-! ## Decoding an encoded instruction (O1) -/

namespace Sys2Proof

/-- Decoding inverts encoding, format by format: the leading nibble selects the arm of the decoder, and the fields
packed into the word are the ones extracted from it (R101, R102, R109). -/
theorem decode_encode (i : Instr) : decode (encode i) = .ok i := by
  cases i
  case cls => exact decode_clsWord
  case ret => decide
  case jp | call | ldI => simp [encode, decode, op_packNnn, nnn_packNnn]
  case seImm | sneImm | ldImm | addImm => simp [encode, decode, op_packXkk, x_packXkk, kk_packXkk]
  case seReg | sneReg | drw => simp [encode, decode, op_packXyn, x_packXyn, y_packXyn, n_packXyn]
  case skp | sknp => simp [encode, decode, decodeE, op_packXkk, x_packXkk, kk_packXkk]
  case ldVxDt | ldDtVx | ldStVx | addI | ldF | ldB | store | load =>
    simp [encode, decode, decodeF, op_packXkk, x_packXkk, kk_packXkk]
  all_goals simp [encode, decode, decode8, op_packXyn, x_packXyn, y_packXyn, n_packXyn]

/-- The bytes of an instruction, whatever follows them, decode to it and leave what follows (R76, R100). -/
theorem decodeBytes_encodeBytes (i : Instr) (rest : List Byte) :
    decodeBytes (encodeBytes i ++ rest) = .ok (i, rest) := by
  simp [encodeBytes, bytesOfWord, decodeBytes, decode_encode]

/-- Settles O1: the two bytes of an encoded word are that word again, and its fields are the operands. -/
theorem decodeOfEncodeIsTheInstruction : Obligations.DecodeOfEncodeIsTheInstruction := fun i rest =>
  ⟨decode_encode i, decodeBytes_encodeBytes i rest⟩

end Sys2Proof

/-! ## Encoding a decoded word (O2) -/

namespace Sys2Proof

open Machine (ReservedWord)

/-! ### A word is packed from its fields (R101, R102) -/

theorem packNnn_of_op {w : Word} {o : BitVec 4} (ho : (Field.op w).toNat = o.toNat) :
    packNnn o (Field.nnn w) = w := by
  apply BitVec.eq_of_toNat_eq
  rw [packNnn_toNat, ← ho, op_toNat, nnn_toNat]
  omega

theorem packXkk_of_op_kk {w : Word} {o : BitVec 4} {k : Byte} (ho : (Field.op w).toNat = o.toNat)
    (hk : Field.kk w = k) : packXkk o (Field.x w) k = w := by
  apply BitVec.eq_of_toNat_eq
  rw [packXkk_toNat, ← ho, ← hk, op_toNat, x_val, kk_toNat]
  omega

theorem packXyn_of_op_n {w : Word} {o : BitVec 4} {n : Fin 16} (ho : (Field.op w).toNat = o.toNat)
    (hn : (Field.n w).val = n.val) : packXyn o (Field.x w) (Field.y w) n = w := by
  apply BitVec.eq_of_toNat_eq
  rw [packXyn_toNat, ← ho, ← hn, op_toNat, x_val, y_val, n_val]
  omega

/-! ### The decoder arm by arm (R109) -/

/-- What the decoder answers about a word is right: the instruction encodes to the word, or the word is reserved and
the failure names it. -/
def Justified (w : Word) : Except DecodeError Instr → Prop
  | .ok i => encode i = w
  | .error e => e = .noRow w ∧ ReservedWord w

theorem decode0_justified {w : Word} (ho : Field.op w = 0x0) : Justified w (decode0 w) := by
  unfold decode0
  split_ifs with hcls hret
  · exact hcls.symm
  · exact hret.symm
  · exact ⟨rfl, .inl ⟨ho, hcls, hret⟩⟩

theorem decode8_justified {w : Word} (ho : Field.op w = 0x8) : Justified w (decode8 w) := by
  unfold decode8
  split
  case h_10 =>
    have hn : Field.n w ∈ ([0x8, 0x9, 0xA, 0xB, 0xC, 0xD, 0xF] : List (Fin 16)) := by
      generalize Field.n w = n at *
      revert n
      decide
    exact ⟨rfl, by simp only [ReservedWord]; tauto⟩
  all_goals exact packXyn_of_op_n (congrArg BitVec.toNat ho) ‹_›

theorem decodeE_justified {w : Word} (ho : Field.op w = 0xE) : Justified w (decodeE w) := by
  unfold decodeE
  split_ifs
  case neg => exact ⟨rfl, by simp [ReservedWord, *]⟩
  all_goals exact packXkk_of_op_kk (congrArg BitVec.toNat ho) ‹_›

theorem decodeF_justified {w : Word} (ho : Field.op w = 0xF) : Justified w (decodeF w) := by
  unfold decodeF
  split_ifs
  case neg => exact ⟨rfl, by simp [ReservedWord, *]⟩
  all_goals exact packXkk_of_op_kk (congrArg BitVec.toNat ho) ‹_›

/-- The arms 5xyn and 9xyn decode exactly when the low nibble is 0 (R105). -/
theorem lowNibbleZero_justified {w : Word} {o : BitVec 4} {f : Reg → Reg → Instr}
    (hf : ∀ x y, encode (f x y) = packXyn o x y 0) (ho : Field.op w = o) (hres : o = 0x5 ∨ o = 0x9) :
    Justified w (if Field.n w = 0 then .ok (f (Field.x w) (Field.y w)) else .error (.noRow w)) := by
  subst ho
  split_ifs with hn
  · exact (hf _ _).trans (packXyn_of_op_n rfl (congrArg Fin.val hn))
  · exact ⟨rfl, by simp only [ReservedWord]; tauto⟩

/-- Every arm of the decoder answers what its row or its reserved space says (R109, R110). -/
theorem decode_justified (w : Word) : Justified w (decode w) := by
  unfold decode
  split
  case h_1 ho => exact decode0_justified (BitVec.eq_of_toNat_eq ho)
  case h_2 | h_3 | h_11 => exact packNnn_of_op ‹_›
  case h_4 | h_5 | h_7 | h_8 => exact packXkk_of_op_kk ‹_› rfl
  case h_6 ho => exact lowNibbleZero_justified (fun _ _ => rfl) (BitVec.eq_of_toNat_eq ho) (.inl rfl)
  case h_9 ho => exact decode8_justified (BitVec.eq_of_toNat_eq ho)
  case h_10 ho => exact lowNibbleZero_justified (fun _ _ => rfl) (BitVec.eq_of_toNat_eq ho) (.inr rfl)
  case h_12 => exact packXyn_of_op_n ‹_› rfl
  case h_13 ho => exact decodeE_justified (BitVec.eq_of_toNat_eq ho)
  case h_14 ho => exact decodeF_justified (BitVec.eq_of_toNat_eq ho)
  case h_15 =>
    have hlt := (Field.op w).isLt
    obtain ho | ho : (Field.op w).toNat = 0xB ∨ (Field.op w).toNat = 0xC := by grind
    · exact ⟨rfl, .inr (.inl (BitVec.eq_of_toNat_eq ho))⟩
    · exact ⟨rfl, .inr (.inr (.inl (BitVec.eq_of_toNat_eq ho)))⟩

/-- Encoding inverts decoding (R108, R109). -/
theorem encode_of_decode {w : Word} {i : Instr} (h : decode w = .ok i) : encode i = w :=
  show Justified w (.ok i) from h ▸ decode_justified w

theorem reserved_of_decode_error {w : Word} {e : DecodeError} (h : decode w = .error e) : ReservedWord w :=
  (show Justified w (.error e) from h ▸ decode_justified w).2

/-- Settles O2: every arm of the decoder reads the fields that its row's format packs. -/
theorem encodeOfDecodeIsTheWord : Obligations.EncodeOfDecodeIsTheWord := fun _ _ => encode_of_decode

end Sys2Proof

/-! ## The reserved words (O4) -/

namespace Sys2Proof

open Machine (ReservedWord)

/-- No encoded instruction lies in a reserved space, format by format (R105, R106, R111, R112). -/
theorem not_reserved_encode (i : Instr) : ¬ ReservedWord (encode i) := by
  cases i
  case cls | ret => unfold ReservedWord; decide
  case jp | call | ldI => simp [ReservedWord, encode, op_packNnn]
  case seImm | sneImm | ldImm | addImm => simp [ReservedWord, encode, op_packXkk]
  case skp | sknp | ldVxDt | ldDtVx | ldStVx | addI | ldF | ldB | store | load =>
    simp [ReservedWord, encode, op_packXkk, kk_packXkk]
  all_goals simp [ReservedWord, encode, op_packXyn, n_packXyn]

/-- Settles O4: the decoder rejects only reserved words, and a word that it accepts is an encoding, which is not
reserved. -/
theorem reservedWordsAreTheDecodeFailures : Obligations.ReservedWordsAreTheDecodeFailures := by
  refine fun w => ⟨reserved_of_decode_error, fun hres => ?_⟩
  cases hd : decode w with
  | error e => rw [decode_error hd]
  | ok i => exact absurd (encode_of_decode hd ▸ hres) (not_reserved_encode i)

end Sys2Proof

/-! ## The opcode map (O3) -/

namespace Sys2Proof

open Machine (ReservedWord)

/-! ### The fields that a row's mask keeps (R108) -/

/-- The mask F000 keeps the leading nibble. -/
theorem and_maskOp (w : Word) : w &&& 0xF000#16 = packNnn (Field.op w) 0 := by
  conv_lhs => rw [← packNnn_of_op (w := w) rfl, packNnn]
  rw [show 0xF000#16 = BitVec.allOnes 4 ++ 0#12 from rfl, BitVec.and_append, BitVec.and_allOnes, BitVec.and_zero]
  rfl

/-- The mask F00F keeps the leading and the low nibble. -/
theorem and_maskOpN (w : Word) : w &&& 0xF00F#16 = packXyn (Field.op w) 0 0 (Field.n w) := by
  conv_lhs => rw [← packXyn_of_op_n (w := w) rfl rfl, packXyn]
  rw [show 0xF00F#16 = BitVec.allOnes 4 ++ 0#4 ++ 0#4 ++ BitVec.allOnes 4 from rfl, BitVec.and_append,
    BitVec.and_append, BitVec.and_append, BitVec.and_allOnes, BitVec.and_allOnes, BitVec.and_zero, BitVec.and_zero]
  rfl

/-- The mask F0FF keeps the leading nibble and the trailing byte. -/
theorem and_maskOpKk (w : Word) : w &&& 0xF0FF#16 = packXkk (Field.op w) 0 (Field.kk w) := by
  conv_lhs => rw [← packXkk_of_op_kk (w := w) rfl rfl, packXkk]
  rw [show 0xF0FF#16 = BitVec.allOnes 4 ++ 0#4 ++ BitVec.allOnes 8 from rfl, BitVec.and_append,
    BitVec.and_append, BitVec.and_allOnes, BitVec.and_allOnes, BitVec.and_zero]
  rfl

/-! ### The rows that match a word -/

/-- The rows of the opcode map with a leading nibble. -/
def rowsOf (o : BitVec 4) : List OpcodeRow := opcodeMap.filter fun r => Field.op r.pattern == o

/-- The rows of the opcode map that match a word. -/
def matching (w : Word) : List OpcodeRow := opcodeMap.filter fun r => r.matchesWord w

/-- Every row's mask keeps the leading nibble, so only the rows of a word's own leading nibble can match it. -/
theorem op_eq_of_matchesWord {r : OpcodeRow} {w : Word} (hr : r ∈ opcodeMap) (h : r.matchesWord w = true) :
    Field.op r.pattern = Field.op w := by
  have hmask : ∀ r ∈ opcodeMap, Field.op r.mask = BitVec.allOnes 4 := by decide
  rw [← eq_of_beq h, Field.op, BitVec.extractLsb_and]
  exact (congrArg _ (hmask r hr)).trans BitVec.and_allOnes

/-- Rows of one leading nibble have one mask, so the rows that match a word are those whose pattern is what
this mask keeps of it. -/
theorem matching_of_mask {w v m : Word} {o : BitVec 4} (ho : Field.op w = o) (hv : w &&& m = v)
    (hm : ∀ r ∈ rowsOf o, r.mask = m) : matching w = (rowsOf o).filter fun r => v == r.pattern := by
  rw [matching, rowsOf, List.filter_filter]
  refine List.filter_congr fun r hr => ?_
  by_cases hop : Field.op r.pattern = o
  · rw [OpcodeRow.matchesWord, hm r (List.mem_filter.2 ⟨hr, beq_iff_eq.2 hop⟩), hv]
    simp [hop]
  · have : r.matchesWord w ≠ true := fun h => hop ((op_eq_of_matchesWord hr h).trans ho)
    simp [hop, this]

section Matching
variable {w : Word} {o : BitVec 4} (ho : Field.op w = o)
include ho

theorem matching_of_op (hm : ∀ r ∈ rowsOf o, r.mask = 0xF000#16) :
    matching w = (rowsOf o).filter fun r => packNnn o 0 == r.pattern :=
  matching_of_mask ho (by rw [and_maskOp, ho]) hm

theorem matching_of_op_n {n : Fin 16} (hn : Field.n w = n) (hm : ∀ r ∈ rowsOf o, r.mask = 0xF00F#16) :
    matching w = (rowsOf o).filter fun r => packXyn o 0 0 n == r.pattern :=
  matching_of_mask ho (by rw [and_maskOpN, ho, hn]) hm

theorem matching_of_op_kk {k : Byte} (hk : Field.kk w = k) (hm : ∀ r ∈ rowsOf o, r.mask = 0xF0FF#16) :
    matching w = (rowsOf o).filter fun r => packXkk o 0 k == r.pattern :=
  matching_of_mask ho (by rw [and_maskOpKk, ho, hk]) hm

end Matching

/-- Exactly its own row matches an encoded instruction (R108). -/
theorem matching_encode (i : Instr) : (matching (encode i)).map OpcodeRow.number = [i.raw.row] := by
  cases i
  case cls | ret => decide
  case jp | call | ldI =>
    exact congrArg (List.map _) (matching_of_op (op_packNnn _ _) (by decide))
  case seImm | sneImm | ldImm | addImm =>
    exact congrArg (List.map _) (matching_of_op (op_packXkk _ _ _) (by decide))
  case drw => exact congrArg (List.map _) (matching_of_op (op_packXyn _ _ _ _) (by decide))
  case skp | sknp | ldVxDt | ldDtVx | ldStVx | addI | ldF | ldB | store | load =>
    exact congrArg (List.map _) (matching_of_op_kk (op_packXkk _ _ _) (kk_packXkk _ _ _) (by decide))
  all_goals
    exact congrArg (List.map _) (matching_of_op_n (op_packXyn _ _ _ _) (n_packXyn _ _ _ _) (by decide))

/-- A trailing byte that no row has selects none. -/
theorem filter_kk_eq_nil {rows : List OpcodeRow} {o : BitVec 4} {k : Byte}
    (h : k ∉ rows.map fun r => Field.kk r.pattern) : (rows.filter fun r => packXkk o 0 k == r.pattern) = [] :=
  List.filter_eq_nil_iff.2 fun r hr he =>
    h (List.mem_map.2 ⟨r, hr, by rw [← eq_of_beq he, kk_packXkk]⟩)

/-- No row matches a reserved word, space by space (R105, R106, R111, R112). -/
theorem matching_reserved {w : Word} (h : ReservedWord w) : matching w = [] := by
  obtain ⟨ho, hcls, hret⟩ | ho | ho | ⟨ho | ho, hn⟩ | ⟨ho, hn⟩ | ⟨ho, hk⟩ | ⟨ho, hk⟩ := h
  · have hpat : ∀ r ∈ rowsOf 0x0, r.pattern = 0x00E0 ∨ r.pattern = 0x00EE := by decide
    rw [matching_of_mask ho BitVec.and_allOnes (by decide)]
    refine List.filter_eq_nil_iff.2 fun r hr he => ?_
    rw [eq_of_beq he] at hcls hret
    exact (hpat r hr).elim hcls hret
  · exact matching_of_op ho (by decide)
  · exact matching_of_op ho (by decide)
  · rw [matching_of_op_n ho rfl (by decide)]
    revert hn; generalize Field.n w = n; revert n; decide
  · rw [matching_of_op_n ho rfl (by decide)]
    revert hn; generalize Field.n w = n; revert n; decide
  · rw [matching_of_op_n ho rfl (by decide)]
    revert hn; generalize Field.n w = n; revert n; decide
  · rw [matching_of_op_kk ho rfl (by decide)]
    exact filter_kk_eq_nil hk
  · rw [matching_of_op_kk ho rfl (by decide)]
    exact filter_kk_eq_nil hk

/-- Settles O3: a word that decodes is the encoding of its instruction, which its own row alone matches, and one that
does not decode is reserved. -/
theorem decoderAgreesWithOpcodeMap : Obligations.DecoderAgreesWithOpcodeMap := by
  intro w
  cases hd : decode w with
  | ok i =>
    rw [← encode_of_decode hd]
    exact matching_encode i
  | error e => exact ⟨decode_error hd, matching_reserved (reserved_of_decode_error hd)⟩

end Sys2Proof

/-! ## Words written out (O5) -/

namespace Sys2Proof

/-- Settles O5: each word is the encoding of the instruction, and B123 lies in a reserved space. -/
theorem sampleWordsDecode : Obligations.SampleWordsDecode := by
  unfold Obligations.SampleWordsDecode
  exact ⟨decode_clsWord, decode_encode (.jp 0xABC), decode_encode (.ldImm 0xA 0x12), decode_encode (.subn 1 2),
    decode_encode (.drw 1 2 3), decode_encode (.sknp 2), decode_encode (.load 3),
    (reservedWordsAreTheDecodeFailures _).2 (.inr (.inl (by decide)))⟩

end Sys2Proof

/-! ## What an execute phase can do -/

namespace Sys2Proof.Machine

/-- The skips: the conditional advances of pc (R144–R147, R260, R261). -/
def IsSkip (i : Instr) : Prop :=
  (∃ x k, i = .seImm x k ∨ i = .sneImm x k) ∨ (∃ x y, i = .seReg x y ∨ i = .sneReg x y) ∨
    ∃ x, i = .skp x ∨ i = .sknp x

/-- An instruction completes: what it may have written, by the component it is there to write. -/
inductive Completes (i : Instr) (s : State) : State → Prop where
  /-- general registers alone -/
  | regs {v} (hregs : RegsBut (writesRegs i) s (s.setRegs v)) : Completes i s (s.setRegs v)
  /-- the index register, and VF for an overflow -/
  | index {w v} (hi : (∃ a, i = .ldI a) ∨ (∃ x, i = .addI x) ∨ ∃ x, i = .ldF x)
      (hregs : RegsBut (writesRegs i) s (s.setRegs v)) : Completes i s ((s.setI w).setRegs v)
  /-- the display, and VF for a collision -/
  | display {d v} (hi : i = .cls ∨ ∃ x y n, i = .drw x y n)
      (hregs : RegsBut (writesRegs i) s (s.setRegs v)) : Completes i s ((s.setFb d).setRegs v)
  /-- a block of memory -/
  | memory {bs} (hi : (∃ x, i = .ldB x) ∨ ∃ x, i = .store x) (hfits : BlockFits s bs.length) :
      Completes i s (s.setMem (s.mem.place s.I.toNat bs))
  | delayTimer {v} (hi : ∃ x, i = .ldDtVx x) : Completes i s (s.setDT v)
  | soundTimer {v} (hi : ∃ x, i = .ldStVx x) : Completes i s (s.setST v)
  | jump {nnn} (hi : i = .jp nnn) : Completes i s (s.setPc (target nnn))
  | skip {c} (hi : IsSkip i) : Completes i s (s.skipIf c)
  | call {nnn} (hi : i = .call nnn) (hroom : s.stack.length ≠ 16) :
      Completes i s ((s.setStack (s.pc :: s.stack)).setPc (target nnn))
  | ret {r rest} (hi : i = .ret) (htop : s.stack = r :: rest) : Completes i s ((s.setStack rest).setPc r)

/-- An instruction raises: the faults of R281 with what led to them and the `info` of the record. -/
inductive Raises (i : Instr) (s : State) : FaultKind → Option Word → Prop where
  | stackUnderflow (hi : i = .ret) (hempty : s.stack = []) : Raises i s .stackUnderflow none
  | stackOverflow {nnn} (hi : i = .call nnn) (hfull : s.stack.length = 16) : Raises i s .stackOverflow none
  | addressOutOfRange (hi : .addressOutOfRange ∈ mayRaise i) :
      Raises i s .addressOutOfRange (some (firstOutside s))
  | keyOutOfRange {x} (hi : i = .skp x ∨ i = .sknp x) (hkey : 0x10 ≤ (s.reg x).toNat) :
      Raises i s .keyOutOfRange (some ((s.reg x).setWidth 16))

/-- The state after an instruction that raises: only the status register differs (R282, R283). -/
def State.faulted (s : State) (i : Instr) (kind : FaultKind) (info : Option Word) : State :=
  s.raise kind (s.pc - 2) (some (encode i)) info

/-! ### The instructions that may fault, case by case -/

theorem raiseIn_eq_faulted (i : Instr) (kind : FaultKind) (info : Option Word) (s : State) :
    raiseIn i kind info s = .next (s.faulted i kind info) := rfl

theorem exec_ret_nil {s : State} (h : s.stack = []) : exec .ret s = .next (s.faulted .ret .stackUnderflow none) := by
  simp only [exec, execRet, h, raiseIn_eq_faulted]

theorem exec_ret_cons {s : State} {r : Word} {rest : List Word} (h : s.stack = r :: rest) :
    exec .ret s = .next ((s.setStack rest).setPc r) := by
  simp only [exec, execRet, h]

theorem exec_call_full {nnn : Addr12} {s : State} (h : s.stack.length = 16) :
    exec (.call nnn) s = .next (s.faulted (.call nnn) .stackOverflow none) :=
  if_pos h

theorem exec_call_room {nnn : Addr12} {s : State} (h : s.stack.length ≠ 16) :
    exec (.call nnn) s = .next ((s.setStack (s.pc :: s.stack)).setPc (target nnn)) :=
  if_neg h

theorem skipOnKey_of_key {i : Instr} {x : Reg} {wanted : Bool} {s : State} {k : Key}
    (h : (s.reg x).toNat = k.val) : skipOnKey i x wanted s = .next (s.skipIf (s.keys[k] == wanted)) := by
  simp only [skipOnKey, keyOf_eq_some.2 h]

theorem skipOnKey_of_noKey {i : Instr} {x : Reg} {wanted : Bool} {s : State} (h : 16 ≤ (s.reg x).toNat) :
    skipOnKey i x wanted s = .next (s.faulted i .keyOutOfRange (some ((s.reg x).setWidth 16))) := by
  simp only [skipOnKey, keyOf_eq_none.2 h, raiseIn_eq_faulted]

/-- An instruction that reads a block from I up: it goes on with the bytes, or raises with the first address outside
memory (R72, R77). -/
theorem afterAccess_readBlock (i : Instr) (s : State) (n : Nat) (k : List Byte → Result) :
    afterAccess i s (s.mem.readBlock s.I.toNat n) k =
      if BlockFits s n then k ((List.range n).map fun j => s.mem.read (s.I.toNat + j))
      else .next (s.faulted i .addressOutOfRange (some (firstOutside s))) := by
  rw [Memory.readBlock_eq]
  split_ifs <;> rfl

/-- An instruction that writes a block from I up: it places the bytes, or raises with the first address outside
memory (R72, R77). -/
theorem afterAccess_writeBlock (i : Instr) (s : State) (bs : List Byte) :
    afterAccess i s (s.mem.writeBlock s.I.toNat bs) (fun m => .next (s.setMem m)) =
      if BlockFits s bs.length then .next (s.setMem (s.mem.place s.I.toNat bs))
      else .next (s.faulted i .addressOutOfRange (some (firstOutside s))) := by
  have hnil : bs = [] ↔ bs.length = 0 := List.length_eq_zero_iff.symm
  split_ifs with h
  · rw [Memory.writeBlock_ok (by rwa [hnil])]; rfl
  · obtain ⟨h0, hout⟩ := not_or.1 h
    rw [Memory.writeBlock_error (by rwa [ne_eq, hnil]) (by omega)]; rfl

theorem exec_ldB (x : Reg) (s : State) : exec (.ldB x) s =
    if BlockFits s (bcdBytes s.cfg.bcdMode (s.reg x)).length then
      .next (s.setMem (s.mem.place s.I.toNat (bcdBytes s.cfg.bcdMode (s.reg x))))
    else .next (s.faulted (.ldB x) .addressOutOfRange (some (firstOutside s))) :=
  afterAccess_writeBlock _ s _

theorem exec_store (x : Reg) (s : State) : exec (.store x) s =
    if BlockFits s (x.val + 1) then .next (s.setMem (s.mem.place s.I.toNat (regRange s x)))
    else .next (s.faulted (.store x) .addressOutOfRange (some (firstOutside s))) := by
  rw [← regRange_length s x]
  exact afterAccess_writeBlock _ s _

theorem exec_load (x : Reg) (s : State) : exec (.load x) s =
    if BlockFits s (x.val + 1) then
      .next (s.setRegs (loadRegs s.x 0 ((List.range (x.val + 1)).map fun j => s.mem.read (s.I.toNat + j))))
    else .next (s.faulted (.load x) .addressOutOfRange (some (firstOutside s))) :=
  afterAccess_readBlock _ s _ _

/-- The bytes of the sprite rows that Dxyn draws (R242). -/
def spriteBytes (s : State) (y : Reg) (n : Fin 16) : List Byte :=
  (List.range (spriteRows s y n)).map fun j => s.mem.read (s.I.toNat + j)

/-- The display and the collision flag that Dxyn leaves (R242). -/
def drawn (s : State) (x y : Reg) (n : Fin 16) : Display × Bool :=
  Display.drawRows (s.fb, false) (startColumn (s.reg x)) (startRow (s.reg y))
    (visibleCols (startColumn (s.reg x))) (spriteBytes s y n)

theorem exec_drw (x y : Reg) (n : Fin 16) (s : State) : exec (.drw x y n) s =
    if BlockFits s (spriteRows s y n) then
      .next ((s.setFb (drawn s x y n).1).setReg VF (Flags.value (drawn s x y n).2))
    else .next (s.faulted (.drw x y n) .addressOutOfRange (some (firstOutside s))) :=
  afterAccess_readBlock _ s _ _

/-! ### Register writes -/

theorem regsBut_setReg {l : List Reg} {x : Reg} (hx : x ∈ l) (s : State) (v : Byte) :
    RegsBut l s (s.setReg x v) := fun r hr =>
  State.setReg_reg_of_ne s x r v fun h => hr (h ▸ hx)

theorem RegsBut.trans {l : List Reg} {s t u : State} (hst : RegsBut l s t) (htu : RegsBut l t u) :
    RegsBut l s u := fun r hr => (htu r hr).trans (hst r hr)

/-- A flagged result writes VX and VF (R180). -/
theorem regsBut_writeFlagged (s : State) (x : Reg) (v w : Byte) :
    RegsBut [x, VF] s ((s.setReg x v).setReg VF w) :=
  (regsBut_setReg (by simp) s v).trans (regsBut_setReg (by simp) _ w)

/-- A block load of X + 1 bytes writes V0 to VX (R215). -/
theorem regsBut_loadRegs (s : State) (x : Reg) {bs : List Byte} (hbs : bs.length = x.val + 1) :
    RegsBut (writesRegs (.load x)) s (s.setRegs (loadRegs s.x 0 bs)) := by
  intro r hr
  have hlt : x.val < r.val := Fin.lt_def.1 (by simpa [writesRegs] using hr)
  have hout : ¬ (0 ≤ r.val ∧ r.val < 0 + bs.length) := by rw [hbs]; omega
  exact (loadRegs_get s.x 0 bs r.val r.isLt).trans (if_neg hout)

/-- The 16-bit sum of Fx1E (R211). -/
def indexSum (s : State) (x : Reg) : Word := s.I + (s.reg x).setWidth 16

/-- The registers that Fx1E leaves: VF is 1 on an enabled overflow (R211). -/
def overflowRegs (s : State) (x : Reg) : Vector Byte 16 :=
  if Flags.indexOverflow s.cfg.indexOverflowFlag (indexSum s x) then s.x.set VF 1 else s.x

theorem exec_addI (x : Reg) (s : State) :
    exec (.addI x) s = .next ((s.setI (indexSum s x)).setRegs (overflowRegs s x)) := by
  have h : exec (.addI x) s = .next (if Flags.indexOverflow s.cfg.indexOverflowFlag (indexSum s x) then
      (s.setI (indexSum s x)).setReg VF 1 else s.setI (indexSum s x)) := rfl
  rw [h, overflowRegs]
  split_ifs <;> rfl

theorem regsBut_overflowRegs (s : State) (x : Reg) : RegsBut [VF] s (s.setRegs (overflowRegs s x)) := by
  unfold overflowRegs
  split
  · exact regsBut_setReg (List.mem_singleton_self VF) s 1
  · exact fun _ _ => rfl

/-! ### Every case -/

theorem completes_setReg {i : Instr} {x : Reg} (hx : x ∈ writesRegs i) (s : State) (v : Byte) :
    Completes i s (s.setReg x v) := .regs (regsBut_setReg hx s v)

/-- An instruction that accesses a block of memory completes where the block fits and raises where it does not. -/
theorem access_cases {i : Instr} {s t u : State} {p : Prop} [Decidable p] (hi : .addressOutOfRange ∈ mayRaise i)
    (hexec : exec i s = if p then .next u else .next (s.faulted i .addressOutOfRange (some (firstOutside s))))
    (hu : p → Completes i s u) (h : exec i s = .next t) :
    Completes i s t ∨ ∃ kind info, Raises i s kind info ∧ t = s.faulted i kind info := by
  rw [hexec] at h
  split_ifs at h with hp <;> cases h
  · exact .inl (hu hp)
  · exact .inr ⟨_, _, .addressOutOfRange hi, rfl⟩

/-- Everything an execute phase can do: complete, or take a fault of its instruction. -/
theorem exec_cases {i : Instr} {s t : State} (h : exec i s = .next t) :
    Completes i s t ∨ ∃ kind info, Raises i s kind info ∧ t = s.faulted i kind info := by
  cases i
  case ret =>
    cases hs : s.stack with
    | nil => cases (exec_ret_nil hs).symm.trans h; exact .inr ⟨_, _, .stackUnderflow rfl hs, rfl⟩
    | cons r rest => cases (exec_ret_cons hs).symm.trans h; exact .inl (.ret rfl hs)
  case call nnn =>
    by_cases hs : s.stack.length = 16
    · cases (exec_call_full hs).symm.trans h; exact .inr ⟨_, _, .stackOverflow rfl hs, rfl⟩
    · cases (exec_call_room hs).symm.trans h; exact .inl (.call rfl hs)
  case skp x | sknp x =>
    by_cases hk : (s.reg x).toNat < 16
    · cases (skipOnKey_of_key (k := ⟨_, hk⟩) rfl).symm.trans h
      exact .inl (.skip (by simp [IsSkip]))
    · cases (skipOnKey_of_noKey (Nat.not_lt.1 hk)).symm.trans h
      exact .inr ⟨_, _, .keyOutOfRange (x := x) (by simp) (Nat.not_lt.1 hk), rfl⟩
  case ldB x =>
    exact access_cases (by simp [mayRaise]) (exec_ldB x s) (fun hfits => .memory (.inl ⟨x, rfl⟩) hfits) h
  case store x =>
    exact access_cases (by simp [mayRaise]) (exec_store x s)
      (fun hfits => .memory (.inr ⟨x, rfl⟩) (by rwa [regRange_length])) h
  case load x =>
    exact access_cases (by simp [mayRaise]) (exec_load x s) (fun _ => .regs (regsBut_loadRegs s x (by simp))) h
  case drw x y n =>
    exact access_cases (by simp [mayRaise]) (exec_drw x y n s)
      (fun _ => .display (.inr ⟨x, y, n, rfl⟩) (regsBut_setReg (by simp [writesRegs]) _ _)) h
  case cls => cases h; exact .inl (.display (d := Display.blank) (v := s.x) (.inl rfl) fun _ _ => rfl)
  case jp => cases h; exact .inl (.jump rfl)
  case seImm | sneImm | seReg | sneReg => cases h; exact .inl (.skip (by simp [IsSkip]))
  case ldI a => cases h; exact .inl (.index (w := target a) (v := s.x) (.inl ⟨a, rfl⟩) fun _ _ => rfl)
  case ldF x =>
    cases h; exact .inl (.index (w := glyphAddress _) (v := s.x) (.inr (.inr ⟨x, rfl⟩)) fun _ _ => rfl)
  case addI x =>
    cases (exec_addI x s).symm.trans h
    exact .inl (.index (.inr (.inl ⟨x, rfl⟩)) (regsBut_overflowRegs s x))
  case ldDtVx x => cases h; exact .inl (.delayTimer ⟨x, rfl⟩)
  case ldStVx x => cases h; exact .inl (.soundTimer ⟨x, rfl⟩)
  case addReg | sub | subn | shr | shl => cases h; exact .inl (.regs (regsBut_writeFlagged s _ _ _))
  all_goals cases h; exact .inl (completes_setReg (by simp [writesRegs]) s _)

end Sys2Proof.Machine

/-! ## Every step keeps the invariant (O51, O52) -/

namespace Sys2Proof.Machine

/-! ### An execute phase -/

/-- The placing of a block that fits keeps the canonical form. -/
theorem place_wf_of_blockFits {s : State} {bs : List Byte} (hfits : BlockFits s bs.length)
    (hwf : s.mem.wf = true) : (s.mem.place s.I.toNat bs).wf = true :=
  Memory.writeBlock_wf (Memory.writeBlock_ok (by rwa [← List.length_eq_zero_iff])) hwf

theorem firstOutside_toNat (s : State) : (firstOutside s).toNat = max s.I.toNat 4096 := by
  have := s.I.isLt
  rw [firstOutside, BitVec.toNat_ofNat]
  omega

/-- The instructions that access a block of memory have leading nibble D or F. -/
theorem op_of_addressOutOfRange {i : Instr} (hi : .addressOutOfRange ∈ mayRaise i) :
    Field.op (encode i) = 0xD ∨ Field.op (encode i) = 0xF := by
  cases i
  case drw => exact .inl (op_packXyn _ _ _ _)
  case ldB | store | load => exact .inr (op_packXkk _ _ _)
  all_goals simp [mayRaise] at hi

/-- The record of an instruction that raises fits its kind (R281, R282, R283). -/
theorem Raises.fits {i : Instr} {s : State} {kind : FaultKind} {info : Option Word} (h : Raises i s kind info) :
    (s.faulted i kind info).status.fits s.pc s.stack = true := by
  cases h with
  | stackUnderflow hi hempty =>
    subst hi
    simp [State.faulted, Status.fits, FaultRecord.fits, hempty, encode]
  | stackOverflow hi hfull =>
    subst hi
    simp [State.faulted, Status.fits, FaultRecord.fits, hfull, encode, op_packNnn]
  | addressOutOfRange hi =>
    simpa [State.faulted, Status.fits, FaultRecord.fits, firstOutside_toNat] using op_of_addressOutOfRange hi
  | @keyOutOfRange x hi hkey =>
    have hop : Field.op (encode i) = 0xE := by
      obtain rfl | rfl := hi
      · exact op_packXkk _ _ _
      · exact op_packXkk _ _ _
    have hinfo : ((s.reg x).setWidth 16).toNat = (s.reg x).toNat := BitVec.toNat_setWidth_of_le (by decide)
    have hbyte := (s.reg x).isLt
    simp only [State.faulted, State.raise_status, Status.fits, FaultRecord.fits, hop, hinfo, BitVec.sub_add_cancel,
      beq_self_eq_true, Bool.true_and, Bool.and_eq_true, decide_eq_true_eq]
    omega

/-- An instruction that completes leaves the status register. -/
theorem Completes.status_eq {i : Instr} {s t : State} (h : Completes i s t) : t.status = s.status := by
  cases h
  case skip => exact State.skipIf_status s _
  all_goals rfl

theorem Completes.mem_wf {i : Instr} {s t : State} (h : Completes i s t) (hwf : s.mem.wf = true) :
    t.mem.wf = true := by
  cases h
  case memory hfits => exact place_wf_of_blockFits hfits hwf
  case skip => rwa [State.skipIf_mem]
  all_goals exact hwf

/-- What the invariant says of the call stack (R36, R41). -/
def StackInv (stack : List Word) : Prop := stack.length ≤ 16 ∧ ∀ r ∈ stack, r.toNat ≤ 0x1000

/-- Only a call grows the stack, by the pc of the execute phase; a return shrinks it. -/
theorem Completes.stackInv {i : Instr} {s t : State} (h : Completes i s t) (hpc : s.pc.toNat ≤ 0x1000)
    (hstack : StackInv s.stack) : StackInv t.stack := by
  obtain ⟨hlen, hall⟩ := hstack
  cases h
  case call hroom => exact ⟨Nat.lt_of_le_of_ne hlen hroom, List.forall_mem_cons.2 ⟨hpc, hall⟩⟩
  case ret htop =>
    rw [htop] at hlen hall
    exact ⟨Nat.le_of_succ_le hlen, (List.forall_mem_cons.1 hall).2⟩
  case skip => rw [State.skipIf_stack]; exact ⟨hlen, hall⟩
  all_goals exact ⟨hlen, hall⟩

/-- pc stays, moves on by 2, or is a 12-bit address or a stack entry (R35, R36). -/
theorem Completes.pc_le {i : Instr} {s t : State} (h : Completes i s t) (hpc : s.pc.toNat ≤ 0x1000)
    (hstack : StackInv s.stack) : t.pc.toNat ≤ 0x1002 := by
  have hle : s.pc.toNat ≤ 0x1002 := hpc.trans (by decide)
  have htarget (nnn : Addr12) : (target nnn).toNat ≤ 0x1002 := by
    have := nnn.isLt
    rw [target_toNat]
    omega
  cases h
  case jump nnn _ => exact htarget nnn
  case call nnn _ _ => exact htarget nnn
  case ret r rest _ htop =>
    have : r.toNat ≤ 0x1000 := hstack.2 r (htop ▸ List.mem_cons_self)
    exact this.trans (by decide)
  case skip =>
    rw [State.skipIf_pc]
    split
    · rw [BitVec.toNat_add]
      exact (Nat.mod_le _ _).trans (Nat.add_le_add_right hpc 2)
    · exact hle
  all_goals exact hle

theorem inv_iff (s : State) : s.Inv ↔
    s.mem.wf = true ∧ StackInv s.stack ∧ s.pc.toNat ≤ 0x1002 ∧ s.status.fits s.pc s.stack = true := by
  simp [State.Inv, StackInv, and_assoc]

/-- The invariant is kept by the execute phase of a running core whose fetch has completed. -/
theorem exec_inv {i : Instr} {s t : State} (hrun : s.status = .running) (hpc : s.pc.toNat ≤ 0x1000) (hs : s.Inv)
    (h : exec i s = .next t) : t.Inv := by
  obtain ⟨hwf, hstack, hpc', -⟩ := (inv_iff s).1 hs
  obtain hc | ⟨kind, info, hr, rfl⟩ := exec_cases h
  · refine (inv_iff t).2 ⟨hc.mem_wf hwf, hc.stackInv hpc hstack, hc.pc_le hpc hstack, ?_⟩
    rw [hc.status_eq, hrun]
    rfl
  · exact (inv_iff _).2 ⟨hwf, hstack, hpc', hr.fits⟩

/-! ### A Step -/

/-- A completed fetch leaves pc at 0x1000 or below (R36, R76). -/
theorem advance_pc_le {s : State} (hf : FetchFits s) : s.advance.pc.toNat ≤ 0x1000 := by
  rw [State.advance_pc, BitVec.toNat_add]
  exact (Nat.mod_le _ _).trans (Nat.succ_le_of_lt hf)

theorem inv_advance {s : State} (hrun : s.status = .running) (hf : FetchFits s) (hs : s.Inv) : s.advance.Inv := by
  obtain ⟨hwf, hstack, -, -⟩ := (inv_iff s).1 hs
  refine (inv_iff _).2 ⟨hwf, hstack, (advance_pc_le hf).trans (by decide), ?_⟩
  rw [State.advance_status, hrun]
  rfl

/-- A Step of a running core keeps the invariant (R120). -/
theorem runInstruction_inv {s t : State} (hrun : s.status = .running) (hs : s.Inv)
    (h : runInstruction s = .next t) : t.Inv := by
  obtain ⟨hwf, hstack, hpc, -⟩ := (inv_iff s).1 hs
  obtain ⟨hf, hr⟩ | ⟨hf, hd, hr⟩ | ⟨i, hf, -, hr⟩ := runInstruction_cases s
  · cases hr.symm.trans h
    refine (inv_iff _).2 ⟨hwf, hstack, hpc, ?_⟩
    have hinfo : 4096 ≤ (BitVec.ofNat 16 (max s.pc.toNat 4096)).toNat := by
      have := s.pc.isLt
      rw [BitVec.toNat_ofNat]
      omega
    simpa [Status.fits, FaultRecord.fits] using hinfo
  · cases hr.symm.trans h
    refine (inv_iff _).2 ⟨hwf, hstack, (advance_pc_le hf).trans (by decide), ?_⟩
    simp [Status.fits, FaultRecord.fits, hd]
  · exact exec_inv (s := s.advance) hrun (advance_pc_le hf) (inv_advance hrun hf hs) (hr.symm.trans h)

/-! ### Construction and the host's requests -/

/-- A constructed core has the invariant (R330). -/
theorem construct_inv {rom : List Byte} {cfg : Cfg} {s : State} (h : construct rom cfg = .next s) : s.Inv := by
  have hwf := construct_wf h
  unfold construct at h
  split at h
  · cases h
  · cases h
    have hpc : (0x200#16).toNat ≤ 0x1002 := by decide
    exact (inv_iff _).2 ⟨hwf, ⟨Nat.zero_le _, List.forall_mem_nil _⟩, hpc, rfl⟩

/-- Serving a request keeps the invariant (R300). -/
theorem serve_inv {op : HostOp} {s t : State} (hs : s.Inv) (h : serve op s = .next t) : t.Inv := by
  cases op with
  | construct rom cfg =>
    obtain ⟨c, hc, rfl⟩ := serve_construct_next h
    exact (construct_inv hc : c.Inv)
  | step =>
    cases hst : s.status with
    | running => exact runInstruction_inv hst hs (by simpa only [serve, serveStep, hst] using h)
    | halted r =>
      simp only [serve, serveStep, hst] at h
      cases h; exact hs
  | tickTimers | keyDown k | keyUp k => cases h; exact hs

/-- Every step keeps the invariant. -/
theorem step_inv {s t : State} (hs : s.Inv) (h : step s = .next t) : t.Inv := by
  cases hp : s.pending with
  | nil =>
    rw [step_idle s hp] at h
    cases hst : s.status with
    | running => exact runInstruction_inv hst hs (by simpa only [stepOp, hst] using h)
    | halted r => simp [stepOp, hst] at h
  | cons op rest => exact serve_inv (s := s.setPending rest) hs (step_request s hp ▸ h)

/-- Settles O51: by cases on the oldest request; a Step runs one execute phase, which completes or raises. -/
theorem everyStepKeepsTheInvariant : Obligations.EveryStepKeepsTheInvariant := fun _ _ => step_inv

/-! ### Runs -/

/-- A run of k + 1 steps that answers a state is a step and a run of k steps. -/
theorem run_succ_next {k : Nat} {s t : State} (h : core.run (k + 1) s = .next t) :
    ∃ u, step s = .next u ∧ core.run k u = .next t := by
  simp only [Host.Core.run] at h
  cases hstep : core.step s with
  | next u => exact ⟨u, hstep, by rwa [hstep] at h⟩
  | fault | refused => simp [hstep] at h

/-- Settles O52, by induction on the number of steps. -/
theorem everyRunKeepsTheInvariant : Obligations.EveryRunKeepsTheInvariant := by
  intro k
  induction k with
  | zero =>
    intro s t hs h
    cases h; exact hs
  | succ k ih =>
    intro s t hs h
    obtain ⟨u, hstep, hrun⟩ := run_succ_next h
    exact ih u t (step_inv hs hstep) hrun

/-- Settles O50: a construction leaves canonical memory, an empty stack and a running core. -/
theorem invariantHoldsAfterConstruction : Obligations.InvariantHoldsAfterConstruction :=
  ⟨by decide, fun _ _ _ => construct_inv⟩

end Sys2Proof.Machine

/-! ## Frames -/

namespace Sys2Proof.Machine

/-- A frame spelt out, component by component. -/
theorem frame_iff {l : List Part} {s t : State} : Frame l s t ↔
    (.mem ∉ l → ∀ a, t.mem.read a = s.mem.read a) ∧ (.regs ∉ l → ∀ r, t.reg r = s.reg r) ∧
    (.I ∉ l → t.I = s.I) ∧ (.pc ∉ l → t.pc = s.pc) ∧ (.stack ∉ l → t.stack = s.stack) ∧
    (.DT ∉ l → t.DT = s.DT) ∧ (.ST ∉ l → t.ST = s.ST) ∧ (.fb ∉ l → t.fb = s.fb) ∧
    (.keys ∉ l → t.keys = s.keys) ∧ (.status ∉ l → t.status = s.status) ∧ (.cfg ∉ l → t.cfg = s.cfg) ∧
    (.pending ∉ l → t.pending = s.pending) := by
  refine ⟨fun h => ⟨h .mem, h .regs, h .I, h .pc, h .stack, h .DT, h .ST, h .fb, h .keys, h .status, h .cfg,
    h .pending⟩, fun ⟨hmem, hregs, hI, hpc, hstack, hDT, hST, hfb, hkeys, hstatus, hcfg, hpending⟩ p hp => ?_⟩
  cases p
  case mem => exact hmem hp
  case regs => exact hregs hp
  case I => exact hI hp
  case pc => exact hpc hp
  case stack => exact hstack hp
  case DT => exact hDT hp
  case ST => exact hST hp
  case fb => exact hfb hp
  case keys => exact hkeys hp
  case status => exact hstatus hp
  case cfg => exact hcfg hp
  case pending => exact hpending hp

theorem frame_raise (s : State) (kind : FaultKind) (a : Word) (w info : Option Word) :
    Frame [.status] s (s.raise kind a w info) := by simp [frame_iff]

theorem frame_setRegs (s : State) (v : Vector Byte 16) : Frame [.regs] s (s.setRegs v) := by simp [frame_iff]

theorem frame_setReg (s : State) (x : Reg) (v : Byte) : Frame [.regs] s (s.setReg x v) := by simp [frame_iff]

theorem frame_skipIf (s : State) (c : Bool) : Frame [.pc] s (s.skipIf c) := by simp [frame_iff]

end Sys2Proof.Machine

/-! ## The Step of a running core (O36, O38, O39) -/

namespace Sys2Proof.Machine

section OneStep
variable {s : State}

theorem runInstruction_of_decode {i : Instr} (hf : FetchFits s) (hd : decode (fetchedWord s) = .ok i) :
    runInstruction s = exec i s.advance := by
  obtain ⟨hout, -⟩ | ⟨-, he, -⟩ | ⟨j, -, hj, hr⟩ := runInstruction_cases s
  · exact absurd hf hout
  · simp [hd] at he
  · cases hj.symm.trans hd; exact hr

theorem runInstruction_of_outside (hf : ¬ FetchFits s) :
    runInstruction s = raiseFetch (max s.pc.toNat 4096) s := by
  obtain ⟨-, hr⟩ | ⟨hin, -⟩ | ⟨i, hin, -⟩ := runInstruction_cases s
  · exact hr
  · exact absurd hin hf
  · exact absurd hin hf

theorem runInstruction_of_reserved (hf : FetchFits s) (hw : ReservedWord (fetchedWord s)) :
    runInstruction s = raiseDecode (fetchedWord s) s := by
  have he := (reservedWordsAreTheDecodeFailures _).2 hw
  obtain ⟨hout, -⟩ | ⟨-, -, hr⟩ | ⟨i, -, hi, -⟩ := runInstruction_cases s
  · exact absurd hf hout
  · exact hr
  · simp [he] at hi

/-- The first address outside memory of a fetch: pc, or 0x1000 behind a byte at 0xFFF (R76, R281). -/
theorem firstOutside_of_fetch (hf : ¬ FetchFits s) :
    BitVec.ofNat 16 (max s.pc.toNat 4096) = if s.pc = 0xFFF#16 then 0x1000#16 else s.pc := by
  split_ifs with hpc
  · rw [hpc]; rfl
  · have hne : s.pc.toNat ≠ 0xFFF := fun h => hpc (BitVec.eq_of_toNat_eq h)
    rw [max_eq_left (by omega), BitVec.ofNat_toNat, BitVec.setWidth_eq]

end OneStep

/-- Settles O36: a Step of a running core, requested or not, is one `runInstruction`. -/
theorem stepRunsTheDecodedInstruction : Obligations.StepRunsTheDecodedInstruction := by
  refine fun s i hrun hf hd => ⟨fun hp => ?_, fun rest hp => ?_⟩
  · exact (step_of_stepsFrom ⟨hrun, .inl ⟨hp, rfl⟩⟩).2.trans (runInstruction_of_decode hf hd)
  · exact (step_of_stepsFrom ⟨hrun, .inr ⟨rest, hp, rfl⟩⟩).2.trans
      (runInstruction_of_decode (s := s.setPending rest) hf hd)

/-- Settles O38: the fetch raises before anything is written. -/
theorem fetchOutsideMemoryTakesTheFault : Obligations.FetchOutsideMemoryTakesTheFault := by
  intro s u hsu hf
  refine ⟨_, (step_of_stepsFrom hsu).2.trans (runInstruction_of_outside hf), frame_raise u _ _ _ _, ?_⟩
  rw [State.raise_status, firstOutside_of_fetch hf]

/-- Settles O39: the decode raises after the fetch has advanced pc. -/
theorem reservedWordTakesDecodeFailure : Obligations.ReservedWordTakesDecodeFailure := by
  intro s u hsu hf hw
  exact ⟨_, (step_of_stepsFrom hsu).2.trans (runInstruction_of_reserved hf hw), by simp [frame_iff], rfl, rfl⟩

end Sys2Proof.Machine

/-! ## A Step that halts the core (O40, O41) -/

namespace Sys2Proof.Machine

/-- A Step that halts a running core took a fault: in the fetch, before anything changed, or after it, with pc past
the fetched word (R282, R283). -/
theorem runInstruction_halts {s t : State} {r : FaultRecord} (hrun : s.status = .running)
    (h : runInstruction s = .next t) (ht : t.status = .halted r) :
    (¬ FetchFits s ∧ ∃ kind info, t = s.raise kind s.pc none info) ∨
      (FetchFits s ∧ ∃ kind info, t = s.advance.raise kind s.pc (some (fetchedWord s)) info) := by
  obtain ⟨hf, hr⟩ | ⟨hf, -, hr⟩ | ⟨i, hf, hd, hr⟩ := runInstruction_cases s
  · cases hr.symm.trans h
    exact .inl ⟨hf, _, _, rfl⟩
  · cases hr.symm.trans h
    exact .inr ⟨hf, _, _, rfl⟩
  · obtain hc | ⟨kind, info, -, rfl⟩ := exec_cases (hr.symm.trans h)
    · have hstatus : t.status = .running := hc.status_eq.trans hrun
      simp [hstatus] at ht
    · refine .inr ⟨hf, kind, info, ?_⟩
      rw [State.faulted, encode_of_decode hd, State.advance_pc, BitVec.add_sub_cancel]

/-- Settles O40: a fault writes the status register, and the completed fetch before it pc. -/
theorem faultChangesOnlyStatusAndPc : Obligations.FaultChangesOnlyStatusAndPc := by
  intro s u t r hsu h ht
  obtain ⟨hrun, hstep⟩ := step_of_stepsFrom hsu
  obtain ⟨hf, kind, info, rfl⟩ | ⟨hf, kind, info, rfl⟩ := runInstruction_halts hrun (hstep.symm.trans h) ht
  · exact ⟨by simp [frame_iff], (if_neg hf).symm⟩
  · exact ⟨by simp [frame_iff], (if_pos hf).symm⟩

/-- Settles O41: the record is written with the address before the fetch and the word it read. -/
theorem faultRecordNamesTheInstruction : Obligations.FaultRecordNamesTheInstruction := by
  intro s u t r hsu h ht
  obtain ⟨hrun, hstep⟩ := step_of_stepsFrom hsu
  obtain ⟨hf, kind, info, rfl⟩ | ⟨hf, kind, info, rfl⟩ := runInstruction_halts hrun (hstep.symm.trans h) ht
  · cases ht; exact ⟨rfl, (if_neg hf).symm⟩
  · cases ht; exact ⟨rfl, (if_pos hf).symm⟩

end Sys2Proof.Machine

/-! ## The halted core (O42) -/

namespace Sys2Proof.Machine

theorem stepOp_halted {s : State} {r : FaultRecord} (h : s.status = .halted r) : stepOp s = .fault (.halted r) := by
  simp only [stepOp, h]

theorem serveStep_halted {s : State} {r : FaultRecord} (h : s.status = .halted r) : serveStep s = .next s := by
  simp only [serveStep, h]

/-- Settles O42, by cases on the oldest request: none but a construction writes the status register of a halted
core. -/
theorem haltedCoreStaysHalted : Obligations.HaltedCoreStaysHalted := by
  intro s r hs
  have hstep (rest : List HostOp) (hp : s.pending = .step :: rest) : step s = .next (s.setPending rest) :=
    (step_request s hp).trans (serveStep_halted hs)
  refine ⟨fun hp => (step_idle s hp).trans (stepOp_halted hs), hstep, fun t h => ?_⟩
  cases hp : s.pending with
  | nil => rw [step_idle s hp, stepOp_halted hs] at h; cases h
  | cons op rest =>
    cases op with
    | construct rom cfg => exact .inr ⟨rom, cfg, rest, rfl⟩
    | step => cases (hstep rest hp).symm.trans h; exact .inl hs
    | tickTimers | keyDown k | keyUp k => cases (step_request s hp).symm.trans h; exact .inl hs

end Sys2Proof.Machine

/-! ## Every execute phase answers a next state (O43) -/

namespace Sys2Proof.Machine

theorem afterAccess_answers {α : Type} {i : Instr} {s : State} {r : Except Nat α} {k : α → State} :
    ∃ t, afterAccess i s r (fun v => .next (k v)) = .next t := by
  cases r <;> exact ⟨_, rfl⟩

theorem skipOnKey_answers (i : Instr) (x : Reg) (wanted : Bool) (s : State) :
    ∃ t, skipOnKey i x wanted s = .next t := by
  unfold skipOnKey
  split <;> exact ⟨_, rfl⟩

/-- No execute phase suspends, and one that faults answers the halted state (R122; log entry 5). -/
theorem exec_answers (i : Instr) (s : State) : ∃ t, exec i s = .next t := by
  cases i
  case ret =>
    cases hs : s.stack with
    | nil => exact ⟨_, exec_ret_nil hs⟩
    | cons r rest => exact ⟨_, exec_ret_cons hs⟩
  case call nnn =>
    by_cases hs : s.stack.length = 16
    · exact ⟨_, exec_call_full hs⟩
    · exact ⟨_, exec_call_room hs⟩
  case skp | sknp => exact skipOnKey_answers _ _ _ s
  case drw | ldB | store | load => exact afterAccess_answers
  all_goals exact ⟨_, rfl⟩

/-- Settles O43: a Step raises in the fetch, raises in the decode, or is an execute phase. -/
theorem everyInstructionAnswersANextState : Obligations.EveryInstructionAnswersANextState := by
  refine ⟨exec_answers, fun s u hsu => ?_⟩
  rw [(step_of_stepsFrom hsu).2]
  obtain ⟨-, hr⟩ | ⟨-, -, hr⟩ | ⟨i, -, -, hr⟩ := runInstruction_cases u
  · exact ⟨_, hr⟩
  · exact ⟨_, hr⟩
  · exact hr ▸ exec_answers i u.advance

end Sys2Proof.Machine

/-! ## The writers of each component (O44, O45) -/

namespace Sys2Proof.Machine

/-- An instruction that completes writes only its registers (R33). -/
theorem Completes.regsBut {i : Instr} {s t : State} (h : Completes i s t) : RegsBut (writesRegs i) s t := by
  cases h
  case regs h | index h | display h => exact h
  case skip => exact fun r _ => State.skipIf_reg s _ r
  all_goals exact fun _ _ => rfl

theorem exec_regsBut {i : Instr} {s t : State} (h : exec i s = .next t) : RegsBut (writesRegs i) s t := by
  obtain hc | ⟨kind, info, -, rfl⟩ := exec_cases h
  · exact hc.regsBut
  · exact fun _ _ => rfl

/-- Settles O45: an instruction that raises writes no register, and one that completes only its own. -/
theorem instructionsWriteOnlyTheirRegisters : Obligations.InstructionsWriteOnlyTheirRegisters :=
  fun _ _ _ => exec_regsBut

theorem Raises.kind_mem {i : Instr} {s : State} {kind : FaultKind} {info : Option Word}
    (h : Raises i s kind info) : kind ∈ mayRaise i := by
  cases h with
  | stackUnderflow hi | stackOverflow hi => subst hi; exact List.mem_singleton_self _
  | addressOutOfRange hi => exact hi
  | keyOutOfRange hi => obtain rfl | rfl := hi <;> exact List.mem_singleton_self _

/-- The register file is its sixteen registers. -/
theorem x_eq_of_regs {s t : State} (h : ∀ r, t.reg r = s.reg r) : t.x = s.x :=
  Vector.ext fun r hr => h ⟨r, hr⟩

/-- Settles O44: an instruction that raises writes the status register alone, and each way to complete names the
component it writes. -/
theorem componentsHaveOnlyTheirNamedWriters : Obligations.ComponentsHaveOnlyTheirNamedWriters := by
  intro i s t h
  obtain ⟨hkeys, hcfg, hpending⟩ := exec_keepsHostParts h
  have hx : t.x ≠ s.x → writesRegs i ≠ [] := fun hne hnil =>
    hne (x_eq_of_regs fun r => exec_regsBut h r (hnil ▸ List.not_mem_nil))
  refine ⟨hkeys, hcfg, hpending, ?_⟩
  obtain hc | ⟨kind, info, hr, rfl⟩ := exec_cases h
  · cases hc <;> simp_all [IsSkip]
  · have := hr.kind_mem
    simp_all [State.faulted]

end Sys2Proof.Machine

/-! ## The sound timer (O46) -/

namespace Sys2Proof.Machine

theorem skipIf_setST (s : State) (c : Bool) (v : Byte) : (s.setST v).skipIf c = (s.skipIf c).setST v := by
  cases c <;> rfl

/-- A memory access neither reads nor writes ST when its continuation does not. -/
theorem afterAccess_setST {α : Type} {i : Instr} {s t : State} {v : Byte} {r : Except Nat α} {k k' : α → State}
    (hk : ∀ a, k' a = (k a).setST v) (h : afterAccess i s r (fun a => .next (k a)) = .next t) :
    afterAccess i (s.setST v) r (fun a => .next (k' a)) = .next (t.setST v) := by
  cases r with
  | ok a => cases h; exact congrArg Host.Outcome.next (hk a)
  | error a => cases h; rfl

theorem skipOnKey_setST {i : Instr} {x : Reg} {wanted : Bool} {s t : State} (v : Byte)
    (h : skipOnKey i x wanted s = .next t) : skipOnKey i x wanted (s.setST v) = .next (t.setST v) := by
  by_cases hk : (s.reg x).toNat < 16
  · cases (skipOnKey_of_key (k := ⟨_, hk⟩) rfl).symm.trans h
    rw [← skipIf_setST]
    exact skipOnKey_of_key (s := s.setST v) (k := ⟨_, hk⟩) rfl
  · cases (skipOnKey_of_noKey (Nat.not_lt.1 hk)).symm.trans h
    exact skipOnKey_of_noKey (s := s.setST v) (Nat.not_lt.1 hk)

/-- Settles O46: what an execute phase decides and writes is the same under every value of ST. -/
theorem soundTimerIsNeverObserved : Obligations.SoundTimerIsNeverObserved := by
  intro i s t v h
  cases i
  case ret =>
    cases hs : s.stack with
    | nil => cases (exec_ret_nil hs).symm.trans h; exact exec_ret_nil (s := s.setST v) hs
    | cons r rest => cases (exec_ret_cons hs).symm.trans h; exact exec_ret_cons (s := s.setST v) hs
  case call nnn =>
    by_cases hs : s.stack.length = 16
    · cases (exec_call_full hs).symm.trans h; exact exec_call_full (s := s.setST v) hs
    · cases (exec_call_room hs).symm.trans h; exact exec_call_room (s := s.setST v) hs
  case skp | sknp => exact skipOnKey_setST v h
  case drw | ldB | store | load => exact afterAccess_setST (fun _ => rfl) h
  case seImm | sneImm | seReg | sneReg => cases h; exact congrArg Host.Outcome.next (skipIf_setST s _ v)
  case addI x => cases (exec_addI x s).symm.trans h; exact exec_addI x (s.setST v)
  all_goals cases h; rfl

end Sys2Proof.Machine

/-! ## The memory instructions (O20–O25) -/

namespace Sys2Proof.Machine

theorem takesFault_faulted (i : Instr) (kind : FaultKind) (info : Option Word) (s : State) :
    TakesFault i kind info s (s.faulted i kind info) :=
  ⟨rfl, frame_raise s _ _ _ _⟩

theorem frame_setMem (s : State) (m : Memory) : Frame [.mem] s (s.setMem m) := by simp [frame_iff]

/-- The bytes placed from I up are read back in order, and every other byte is as before (R80). -/
theorem read_place_I {s : State} {bs : List Byte} (hfits : BlockFits s bs.length) (hwf : s.mem.wf = true) (a : Nat) :
    (s.mem.place s.I.toNat bs).read a =
      if s.I.toNat ≤ a ∧ a < s.I.toNat + bs.length then bs.getD (a - s.I.toNat) 0 else s.mem.read a := by
  obtain h0 | hfits := hfits
  · obtain rfl := List.length_eq_zero_iff.1 h0
    exact (if_neg (by simp only [List.length_nil]; omega)).symm
  · exact Memory.read_place hfits hwf a

section Place
variable {s : State} {bs : List Byte} (hfits : BlockFits s bs.length) (hwf : s.mem.wf = true)
include hfits hwf

theorem read_place_I_of_lt {j : Nat} (hj : j < bs.length) :
    (s.mem.place s.I.toNat bs).read (s.I.toNat + j) = bs.getD j 0 := by
  rw [read_place_I hfits hwf, if_pos (by omega), Nat.add_sub_cancel_left]

theorem memBut_place : MemBut s.I.toNat bs.length s (s.setMem (s.mem.place s.I.toNat bs)) := fun a ha =>
  (read_place_I hfits hwf a).trans (if_neg (by omega))

end Place

/-! ### The decimal digits (R213) -/

/-- The digits that Fx33 computes by division are those of the numeral. -/
theorem bcdBytes_map_toNat (mode : BcdMode) (v : Byte) :
    (bcdBytes mode v).map BitVec.toNat = decimalDigits mode v.toNat := by
  have hv := v.isLt
  have h3 : (digits3 v).map BitVec.toNat = [v.toNat / 100, v.toNat / 10 % 10, v.toNat % 10] := by
    simp [digits3]
    omega
  cases mode with
  | fixed3 => exact h3
  | baseline =>
    simp only [bcdBytes, digitsBaseline, decimalDigits]
    split_ifs with h0 h10 h100
    · simp [h0]
    · rw [List.map_drop, h3, Nat.digits_of_lt 10 _ h0 h10]
      simp; omega
    · rw [List.map_drop, h3, Nat.digits_def' (by decide) (by omega), Nat.digits_of_lt 10 _ (by omega) (by omega)]
      simp; omega
    · rw [h3, Nat.digits_def' (by decide) (by omega), Nat.digits_def' (by decide) (by omega),
        Nat.digits_of_lt 10 _ (by omega) (by omega)]
      simp [Nat.div_div_eq_div_mul]

/-- Settles O20: the digits' bytes are placed from I up where they fit, and nothing is written where they do not. -/
theorem bcdWritesItsDigits : Obligations.BcdWritesItsDigits := by
  intro x s hwf
  have hdigits := bcdBytes_map_toNat s.cfg.bcdMode (s.reg x)
  have hlen : (decimalDigits s.cfg.bcdMode (s.reg x).toNat).length = (bcdBytes s.cfg.bcdMode (s.reg x)).length := by
    rw [← hdigits, List.length_map]
  simp only [hlen]
  refine ⟨fun hfits => ⟨_, (exec_ldB x s).trans (if_pos hfits), fun j hj => ?_, memBut_place hfits hwf,
    frame_setMem s _⟩, fun hfits => ⟨_, (exec_ldB x s).trans (if_neg hfits), takesFault_faulted _ _ _ s⟩⟩
  rw [State.setMem_mem, read_place_I_of_lt hfits hwf hj, ← hdigits]
  simp [hj]

/-- Settles O21: V0 to VX are placed from I up where they fit, and nothing is written where they do not. -/
theorem storeWritesV0ToVx : Obligations.StoreWritesV0ToVx := by
  intro x s hwf
  refine ⟨fun hfits => ?_, fun hfits => ⟨_, (exec_store x s).trans (if_neg hfits), takesFault_faulted _ _ _ s⟩⟩
  have hfits' : BlockFits s (regRange s x).length := by rwa [regRange_length]
  refine ⟨_, (exec_store x s).trans (if_pos hfits), fun r hr => ?_, ?_, frame_setMem s _⟩
  · rw [State.setMem_mem, read_place_I_of_lt hfits' hwf (by rw [regRange_length]; exact Nat.lt_succ_of_le hr)]
    exact regRange_getD s x r.val hr
  · exact regRange_length s x ▸ memBut_place hfits' hwf

/-- V0 to VX hold the bytes of a block load, and the registers above are as before (R215). -/
theorem reg_setRegs_loadRegs (s : State) (x : Reg) (f : Nat → Byte) (r : Reg) :
    (s.setRegs (loadRegs s.x 0 ((List.range (x.val + 1)).map f))).reg r = if r ≤ x then f r.val else s.reg r := by
  refine (loadRegs_get s.x 0 _ r.val r.isLt).trans ?_
  by_cases hr : r ≤ x
  · have : r.val < x.val + 1 := Nat.lt_succ_of_le hr
    simp [hr, this]
  · have : ¬ r.val < x.val + 1 := fun h => hr (Nat.le_of_lt_succ h)
    simp [hr, this, State.reg]

/-- Settles O22: the block read from I up goes to V0 to VX where it fits, and no register is written where it does
not. -/
theorem loadReadsV0ToVx : Obligations.LoadReadsV0ToVx := fun x s =>
  ⟨fun hfits => ⟨_, (exec_load x s).trans (if_pos hfits),
      reg_setRegs_loadRegs s x fun j => s.mem.read (s.I.toNat + j), frame_setRegs s _⟩,
    fun hfits => ⟨_, (exec_load x s).trans (if_neg hfits), takesFault_faulted _ _ _ s⟩⟩

/-- Settles O23: the load reads the bytes that the store placed. -/
theorem loadAfterStoreRestores : Obligations.LoadAfterStoreRestores := by
  intro x s t u hwf hfits h hmem hI
  obtain ⟨t', ht', hread, -, hframe⟩ := (storeWritesV0ToVx x s hwf).1 hfits
  cases h.symm.trans ht'
  have hI' : u.I = s.I := hI.trans (hframe .I (by simp))
  have hfits' : BlockFits u (x.val + 1) := by rwa [BlockFits, hI']
  obtain ⟨v, hv, hregs, hframe'⟩ := (loadReadsV0ToVx x u).1 hfits'
  refine ⟨v, hv, fun r => (hregs r).trans ?_, hframe'⟩
  split_ifs with hr
  · rw [hmem, hI']
    exact hread r hr
  · rfl

/-- Settles O24: a fetch inside the stored block reads two stored bytes. -/
theorem storeIsSeenByTheNextFetch : Obligations.StoreIsSeenByTheNextFetch := by
  intro x s t j hj hwf hfits h hpc
  obtain ⟨t', ht', hread, -, -⟩ := (storeWritesV0ToVx x s hwf).1 hfits
  cases h.symm.trans ht'
  have hin : t.pc.toNat + 1 < 4096 := by
    have := hfits.resolve_left (Nat.succ_ne_zero _)
    omega
  have hhi := hread ⟨j, by omega⟩ (Nat.le_of_lt hj)
  have hlo := hread ⟨j + 1, by omega⟩ hj
  rw [fetch_eq, if_pos hin, hpc, Nat.add_assoc, hhi, hlo]

/-! ### The canonical form (O25) -/

namespace Memory

theorem read_cons_self (a : Nat) (v : Byte) (m : Memory) : read ((a, v) :: m) a = v := if_pos rfl

theorem read_cons_of_ne {a b : Nat} (h : b ≠ a) (v : Byte) (m : Memory) : read ((a, v) :: m) b = m.read b := if_neg h

/-- A listed byte differs from what any canonical list from a higher address up reads as there. -/
theorem read_head_ne {lo a : Nat} {v : Byte} {m n : Memory} (hm : wfFrom lo ((a, v) :: m) = true)
    (hn : wfFrom (a + 1) n = true) : read ((a, v) :: m) a ≠ n.read a := by
  obtain ⟨-, -, hv, -⟩ := wfFrom_cons.1 hm
  rwa [read_cons_self, read_eq_unlisted (Nat.lt_succ_self a) hn]

/-- Two canonical lists that read alike are the same list: their heads are at the same address, and the tails read
alike in turn. -/
theorem eq_of_read_eq {lo hi : Nat} {m n : Memory} (hm : wfFrom lo m = true) (hn : wfFrom hi n = true)
    (h : ∀ a < 4096, m.read a = n.read a) : m = n := by
  induction m generalizing lo hi n with
  | nil =>
    cases n with
    | nil => rfl
    | cons c n =>
      obtain ⟨-, hlt, -, -⟩ := wfFrom_cons.1 hn
      exact absurd (h c.1 hlt).symm (read_head_ne hn rfl)
  | cons c m ih =>
    obtain ⟨a, v⟩ := c
    obtain ⟨-, ha, hv, hm'⟩ := wfFrom_cons.1 hm
    cases n with
    | nil => exact absurd (h a ha) (read_head_ne hm rfl)
    | cons d n =>
      obtain ⟨b, u⟩ := d
      obtain ⟨-, hb, hu, hn'⟩ := wfFrom_cons.1 hn
      obtain hab | rfl | hab := Nat.lt_trichotomy a b
      · exact absurd (h a ha) (read_head_ne hm (wfFrom_cons.2 ⟨hab, hb, hu, hn'⟩))
      · have hvu : v = u := by simpa only [read_cons_self] using h a ha
        have htail : ∀ c < 4096, read m c = read n c := by
          intro c hc
          by_cases hca : c = a
          · rw [hca, read_eq_unlisted (Nat.lt_succ_self a) hm', read_eq_unlisted (Nat.lt_succ_self a) hn']
          · simpa only [read_cons_of_ne hca] using h c hc
        rw [hvu, ih hm' hn' htail]
      · exact absurd (h b hb).symm (read_head_ne hn (wfFrom_cons.2 ⟨hab, ha, hv, hm'⟩))

end Memory

/-- Settles O25, by induction on one of the lists. -/
theorem canonicalMemoryIsDeterminedByItsBytes : Obligations.CanonicalMemoryIsDeterminedByItsBytes :=
  fun _ _ => Memory.eq_of_read_eq

end Sys2Proof.Machine

/-! ## Drawing (O27, O28, O29) -/

namespace Sys2Proof.Machine

theorem spriteBytes_length (s : State) (y : Reg) (n : Fin 16) : (spriteBytes s y n).length = spriteRows s y n := by
  simp [spriteBytes]

theorem spriteBytes_getD {s : State} {y : Reg} {n : Fin 16} {j : Nat} (hj : j < spriteRows s y n) :
    (spriteBytes s y n).getD j 0 = s.mem.read (s.I.toNat + j) := by
  simp [spriteBytes, hj]

/-- The sprite starts in the grid, and what is drawn of it stays in the grid (R242). -/
theorem sprite_in_grid (s : State) (x y : Reg) (n : Fin 16) :
    startColumn (s.reg x) + visibleCols (startColumn (s.reg x)) ≤ 64 ∧
      startRow (s.reg y) + (spriteBytes s y n).length ≤ 32 := by
  rw [spriteBytes_length]
  simp only [startColumn, startRow, visibleCols, spriteRows, Config.fbWidth, Config.fbHeight]
  omega

/-- On the grid the clipped sprite is the sprite (R242). -/
theorem drawn_bit {s : State} {x y : Reg} {n : Fin 16} {c r : Nat} (hc : c < 64) (hr : r < 32) :
    (decide (startRow (s.reg y) ≤ r ∧ r < startRow (s.reg y) + (spriteBytes s y n).length ∧
      startColumn (s.reg x) ≤ c ∧ c < startColumn (s.reg x) + visibleCols (startColumn (s.reg x))) &&
      ((spriteBytes s y n).getD (r - startRow (s.reg y)) 0).getLsbD (7 - (c - startColumn (s.reg x)))) =
    spriteBit s x y n c r := by
  have hin : (startRow (s.reg y) ≤ r ∧ r < startRow (s.reg y) + (spriteBytes s y n).length ∧
      startColumn (s.reg x) ≤ c ∧ c < startColumn (s.reg x) + visibleCols (startColumn (s.reg x))) ↔
      ((s.reg x).toNat % 64 ≤ c ∧ c < (s.reg x).toNat % 64 + 8 ∧ (s.reg y).toNat % 32 ≤ r ∧
        r < (s.reg y).toNat % 32 + n.val) := by
    rw [spriteBytes_length]
    simp only [startColumn, startRow, visibleCols, spriteRows, Config.fbWidth, Config.fbHeight]
    omega
  rw [spriteBit, decide_eq_decide.2 hin, Bool.eq_iff_iff, Bool.and_eq_true, Bool.and_eq_true]
  refine and_congr_right fun hbit => ?_
  have hrow : r - startRow (s.reg y) < spriteRows s y n := by
    have := of_decide_eq_true hbit
    simp only [startRow, spriteRows, Config.fbHeight]
    omega
  rw [spriteBytes_getD hrow]
  rfl

/-- Every cell is XORed with the sprite's bit on it (R242). -/
theorem drawn_cell (s : State) (x y : Reg) (n : Fin 16) {c r : Nat} (hc : c < 64) (hr : r < 32) :
    (drawn s x y n).1.cell c r = (s.fb.cell c r ^^ spriteBit s x y n c r) := by
  obtain ⟨hcols, hrows⟩ := sprite_in_grid s x y n
  rw [drawn, Display.drawRows_cell _ _ hcols hrows, drawn_bit hc hr]

/-- The flag is set exactly when a set bit of the sprite lands on a lit cell (R242). -/
theorem drawn_flag (s : State) (x y : Reg) (n : Fin 16) : (drawn s x y n).2 = true ↔ Collides s x y n := by
  obtain ⟨hcols, hrows⟩ := sprite_in_grid s x y n
  rw [drawn, Display.drawRows_flag _ _ hcols hrows]
  constructor
  · rintro (h | ⟨r, hr, c, hc, hbit, hlit⟩)
    · cases h
    · have hc64 : startColumn (s.reg x) + c < 64 := by omega
      have hr32 : startRow (s.reg y) + r < 32 := by omega
      refine ⟨_, hc64, _, hr32, ?_, hlit⟩
      rw [← drawn_bit hc64 hr32]
      simpa [hr, hc] using hbit
  · rintro ⟨c, hc, r, hr, hbit, hlit⟩
    rw [← drawn_bit hc hr, Bool.and_eq_true, decide_eq_true_eq] at hbit
    obtain ⟨⟨hr0, hr1, hc0, hc1⟩, hbit⟩ := hbit
    refine .inr ⟨r - startRow (s.reg y), by omega, c - startColumn (s.reg x), by omega, hbit, ?_⟩
    rwa [Nat.add_sub_cancel' hr0, Nat.add_sub_cancel' hc0]

/-- Settles O27: the rows that fit are drawn, and VF takes the collision flag. -/
theorem drawXorsSpriteAndSetsCollision : Obligations.DrawXorsSpriteAndSetsCollision := by
  intro x y n s hfits
  refine ⟨_, (exec_drw x y n s).trans (if_pos hfits), fun c hc r hr => drawn_cell s x y n hc hr, fun hcol => ?_,
    fun hcol => ?_, regsBut_setReg (List.mem_singleton_self VF) _ _, by simp [frame_iff]⟩
  · rw [State.setReg_reg_self, (drawn_flag s x y n).2 hcol]
    rfl
  · rw [State.setReg_reg_self, Bool.eq_false_iff.2 (mt (drawn_flag s x y n).1 hcol)]
    rfl

/-- Settles O28: the rows are read before anything is drawn. -/
theorem drawOutsideMemoryTakesTheFault : Obligations.DrawOutsideMemoryTakesTheFault := fun x y n s hfits =>
  ⟨_, (exec_drw x y n s).trans (if_neg hfits), takesFault_faulted _ _ _ s⟩

/-- Settles O29: the sprite's bit on a cell is the same both times, and XOR with it twice is the identity. -/
theorem drawingTwiceRestoresTheDisplay : Obligations.DrawingTwiceRestoresTheDisplay := by
  intro x y n s t u hfits h hfb hmem hI hx hy
  obtain ⟨t', ht', hcell, -⟩ := drawXorsSpriteAndSetsCollision x y n s hfits
  cases h.symm.trans ht'
  have hrows : spriteRows u y n = spriteRows s y n := by rw [spriteRows, spriteRows, hy]
  have hfits' : BlockFits u (spriteRows u y n) := by rwa [BlockFits, hrows, hI]
  have hbit (c r : Nat) : spriteBit u x y n c r = spriteBit s x y n c r := by
    simp only [spriteBit, hx, hy, hmem, hI]
  obtain ⟨v, hv, hcell', -⟩ := drawXorsSpriteAndSetsCollision x y n u hfits'
  refine ⟨v, hv, Display.ext_cell fun c r hc hr => ?_⟩
  rw [hcell' c hc r hr, hfb, hcell c hc r hr, hbit, Bool.xor_assoc, Bool.xor_self, Bool.xor_false]

end Sys2Proof.Machine

/-! ## Construction and the host's requests (O34, O37, O48, O53) -/

namespace Sys2Proof.Machine

/-! ### The constructed core -/

/-- Glyph g, row k is byte 5·g + k of the font's bytes (R46). -/
theorem fontBytes_getD (f : Font) (g : Fin 16) (k : Fin 5) : (fontBytes f).getD (5 * g.val + k.val) 0 = f[g][k] := by
  have h : ∀ (l : List Glyph) (g : Nat) (hg : g < l.length),
      ((l.map Vector.toList).flatten).getD (5 * g + k.val) 0 = l[g][k] := by
    intro l
    induction l with
    | nil => intro g hg; cases hg
    | cons a l ih =>
      intro g hg
      cases g with
      | zero =>
        simp only [List.map_cons, List.flatten_cons]
        rw [List.getD_append _ _ _ _ (by simp)]
        simp
      | succ g =>
        simp only [List.map_cons, List.flatten_cons]
        rw [List.getD_append_right _ _ _ _ (by simp; omega)]
        simpa [Nat.mul_succ, Nat.add_right_comm] using ih g (Nat.lt_of_succ_lt_succ hg)
  exact h f.toList g.val (by simp)

/-- Outside the font an unlisted address reads as 0 (R73). -/
theorem unlisted_of_not_font {a : Nat} (h : a < 0x050 ∨ 0x0A0 ≤ a) : Memory.unlisted a = 0 := by
  unfold Memory.unlisted
  split_ifs with hbase
  · refine List.getD_eq_default _ _ ?_
    rw [fontBytes_length]
    simp only [Config.fontBase] at hbase ⊢
    omega
  · rfl

/-- The font on the cleared memory is read back byte by byte (R46, R330). -/
theorem read_place_font (f : Font) (a : Nat) :
    (Memory.place [] Config.fontBase (fontBytes f)).read a =
      if 0x050 ≤ a ∧ a < 0x0A0 then (fontBytes f).getD (a - 0x050) 0 else Memory.unlisted a := by
  have h := Memory.read_place (m := []) (a := Config.fontBase) (bs := fontBytes f)
    (by rw [fontBytes_length]; decide) rfl a
  rwa [fontBytes_length] at h

/-- The memory that a construction leaves: the ROM over the font over the cleared memory (R330). -/
theorem read_place_rom {rom : List Byte} (cfg : Cfg) (h : rom.length ≤ 3584) (a : Nat) :
    (Memory.place (Memory.place [] Config.fontBase (fontBytes cfg.font)) Config.romBase rom).read a =
      if 0x200 ≤ a ∧ a < 0x200 + rom.length then rom.getD (a - 0x200) 0
      else if 0x050 ≤ a ∧ a < 0x0A0 then (fontBytes cfg.font).getD (a - 0x050) 0 else Memory.unlisted a := by
  rw [← read_place_font]
  exact Memory.read_place (by simp only [Config.romBase]; omega) (place_font_wf cfg.font) a

/-- Settles O48: the ROM and the font lie apart, and every other component is that of the reset state. -/
theorem constructGivesTheResetState : Obligations.ConstructGivesTheResetState := by
  intro rom cfg hlen
  have hread := read_place_rom cfg hlen
  refine ⟨_, construct_of_le cfg hlen, fun g k => ?_, fun j hj => ?_, fun a _ ha => ?_, rfl, rfl, rfl, rfl, rfl,
    fun r => ?_, rfl, rfl, rfl, Display.getElem_blank, fun k => ?_⟩
  · rw [hread, if_neg (by omega), if_pos (by omega), ← fontBytes_getD]
    congr 1
    omega
  · rw [hread, if_pos (by omega), Nat.add_sub_cancel_left]
  · rw [hread, if_neg (by omega), if_neg (by omega), unlisted_of_not_font (by omega)]
  · exact Vector.getElem_replicate r.isLt
  · exact Vector.getElem_replicate k.isLt

/-- Settles O53: the step serves the construction on any core, and the requests behind it stay. -/
theorem constructionIsServedWhateverTheState : Obligations.ConstructionIsServedWhateverTheState := by
  intro s rom cfg rest hp
  refine ⟨fun hlen => ⟨_, construct_of_le cfg hlen, ?_, rfl⟩, fun hlen => ?_⟩
  · rw [step_request s hp, serve, construct_of_le cfg hlen]
    rfl
  · rw [step_request s hp, serve, construct_of_gt cfg hlen]

/-! ### Ticks and key events -/

/-- One key's bit after an event (R304, R305). -/
theorem keys_set (v : Vector Bool 16) (k j : Key) (b : Bool) : (v.set k b)[j] = if j = k then b else v[j] := by
  rw [Fin.getElem_fin, Vector.getElem_set]
  simp only [Fin.ext_iff, eq_comm, Fin.getElem_fin]

/-- Settles O34: the service of a tick or a key event does not look at the status. -/
theorem ticksAndKeyEventsAreServedAlsoWhenHalted : Obligations.TicksAndKeyEventsAreServedAlsoWhenHalted := by
  intro s k rest
  refine ⟨fun hp => ⟨_, step_request s hp, rfl, countDown_toNat s.DT, countDown_toNat s.ST, ?_⟩,
    fun hp => ⟨_, step_request s hp, rfl, ?_, fun j => keys_set s.keys k j true⟩,
    fun hp => ⟨_, step_request s hp, rfl, ?_, fun j => keys_set s.keys k j false⟩⟩
  · simp [frame_iff, tickTimers]
  · simp [frame_iff, keyDown]
  · simp [frame_iff, keyUp]

/-! ### A word placed from outside -/

theorem tableWord_toNat (w : Word) : tableWord 16 w.toNat = w := by
  rw [tableWord, Nat.mod_eq_of_lt w.isLt, BitVec.ofNat_toNat, BitVec.setWidth_eq]

/-- Where a word is placed a fetch succeeds (R76). -/
theorem placeFor_fits (pc : Word) : (placeFor pc).toNat + 1 < 4096 := by
  unfold placeFor
  split_ifs with h
  · exact h
  · decide

/-- A placed word is the one that the next fetch reads (log entry 1). -/
theorem fetchedWord_withFetchWord {s : State} (hwf : s.mem.wf = true) (w : Word) :
    fetchedWord (s.withFetchWord 16 w.toNat) = w := by
  have hfits := placeFor_fits s.pc
  have hmem : (s.withFetchWord 16 w.toNat).mem = s.mem.place (placeFor s.pc).toNat [highByte w, lowByte w] := by
    rw [State.withFetchWord, tableWord_toNat, bytesOfWord]
  have hread := Memory.read_place (bs := [highByte w, lowByte w]) (Nat.succ_le_of_lt hfits) hwf
  have hhi : (s.withFetchWord 16 w.toNat).mem.read (placeFor s.pc).toNat = highByte w := by
    rw [hmem, hread]
    simp
  have hlo : (s.withFetchWord 16 w.toNat).mem.read ((placeFor s.pc).toNat + 1) = lowByte w := by
    rw [hmem, hread]
    simp
  exact (congrArg₂ wordOfBytes hhi hlo).trans (wordOfBytes_bytes w)

/-- Settles O37: the placed core runs with no request before the Step, and its fetch reads the placed word. -/
theorem placedWordRunsNext : Obligations.PlacedWordRunsNext := by
  intro s w i hwf hd
  refine ⟨?_, fun hf => ?_⟩
  · refine (stepRunsTheDecodedInstruction _ i rfl (placeFor_fits s.pc) ?_).1 rfl
    rwa [fetchedWord_withFetchWord hwf]
  · have hpc : placeFor s.pc = s.pc := if_pos hf
    simp [frame_iff, State.withFetchWord, hpc, State.reg]

end Sys2Proof.Machine

/-! ## Control transfer (O7–O12, O54) -/

namespace Sys2Proof

/-- The words 5xyn and 9xyn are those of their row when the low nibble is 0, and reserved otherwise (R105). -/
theorem decode_packXyn_lowNibble {o : BitVec 4} {f : Reg → Reg → Instr} (ho : o = 0x5 ∨ o = 0x9)
    (hf : ∀ x y, encode (f x y) = packXyn o x y 0) (x y : Reg) (n : BitVec 4) : decode (packXyn o x y n.toFin) =
      if n = 0 then .ok (f x y) else .error (.noRow (packXyn o x y n.toFin)) := by
  split_ifs with hn
  · subst hn
    exact hf x y ▸ decode_encode (f x y)
  · have hn' : n.toFin ≠ 0 := fun h => hn (BitVec.toFin_inj.1 h)
    refine (reservedWordsAreTheDecodeFailures _).2 (.inr (.inr (.inr (.inl ?_))))
    rw [op_packXyn, n_packXyn]
    exact ⟨ho, hn'⟩

end Sys2Proof

namespace Sys2Proof.Machine

/-- A skip advances pc by a further 2, modulo 2^16, exactly when its condition holds (R140). -/
theorem skipIf_pc_toNat (s : State) {c : Bool} {p : Prop} [Decidable p] (h : c = true ↔ p) :
    (s.skipIf c).pc.toNat = if p then (s.pc.toNat + 2) % 65536 else s.pc.toNat := by
  rw [State.skipIf_pc]
  by_cases hp : p
  · rw [if_pos (h.2 hp), if_pos hp, BitVec.toNat_add]
    rfl
  · rw [if_neg (mt h.1 hp), if_neg hp]

/-- Settles O7: the words are the packed forms, and the condition is the comparison of VX with KK. -/
theorem immediateSkipsMoveOnlyPc : Obligations.ImmediateSkipsMoveOnlyPc := fun x kk s =>
  ⟨decode_encode (.seImm x kk), decode_encode (.sneImm x kk),
    ⟨_, rfl, frame_skipIf s _, skipIf_pc_toNat s beq_iff_eq⟩,
    ⟨_, rfl, frame_skipIf s _, skipIf_pc_toNat s bne_iff_ne⟩⟩

/-- Settles O8: the low nibble selects the arm, and the condition is the comparison of VX with VY. -/
theorem registerSkipsMoveOnlyPc : Obligations.RegisterSkipsMoveOnlyPc := fun x y s =>
  ⟨decode_packXyn_lowNibble (.inl rfl) (fun _ _ => rfl) x y,
    decode_packXyn_lowNibble (.inr rfl) (fun _ _ => rfl) x y,
    ⟨_, rfl, frame_skipIf s _, skipIf_pc_toNat s beq_iff_eq⟩,
    ⟨_, rfl, frame_skipIf s _, skipIf_pc_toNat s bne_iff_ne⟩,
    ⟨_, rfl, (skipIf_pc_toNat s beq_iff_eq).trans (if_pos rfl)⟩,
    ⟨_, rfl, (State.skipIf_pc s _).trans (if_neg (by simp))⟩⟩

/-- Settles O9: a stack with room takes the pc of the execute phase. -/
theorem callPushesReturnAddress : Obligations.CallPushesReturnAddress := fun nnn s hroom =>
  ⟨_, exec_call_room hroom.ne, target_toNat nnn, rfl, by simp [frame_iff]⟩

/-- Settles O10: the top of a stack that is not empty becomes pc. -/
theorem returnPopsIntoPc : Obligations.ReturnPopsIntoPc := fun _ _ _ hs =>
  ⟨_, exec_ret_cons hs, rfl, rfl, by simp [frame_iff]⟩

/-- Settles O11: the full stack and the empty one are the faulting cases of the two instructions. -/
theorem stackLimitsTakeTheirFaults : Obligations.StackLimitsTakeTheirFaults := fun _ s =>
  ⟨fun hfull => ⟨_, exec_call_full hfull, takesFault_faulted _ _ _ s⟩,
    fun hempty => ⟨_, exec_ret_nil hempty, takesFault_faulted _ _ _ s⟩⟩

/-- Settles O12: the return pops what the call pushed. -/
theorem returnUndoesCall : Obligations.ReturnUndoesCall := by
  intro nnn s t u hroom h hu
  cases (exec_call_room hroom.ne).symm.trans h
  exact ⟨_, exec_ret_cons hu, rfl, rfl⟩

/-- Settles O54: the query reads the three components, and a call or a return moves the depth by one. -/
theorem statusQueryReadsStatusIAndDepth : Obligations.StatusQueryReadsStatusIAndDepth := by
  refine fun nnn s => ⟨rfl, fun hroom => ⟨_, exec_call_room hroom.ne, rfl⟩, fun hne => ?_,
    ⟨_, exec_ldI nnn s, target_toNat nnn⟩⟩
  obtain ⟨r, rest, hs⟩ := List.exists_cons_of_ne_nil hne
  refine ⟨_, exec_ret_cons hs, ?_⟩
  rw [statusQuery_sp, statusQuery_sp, hs]
  rfl

end Sys2Proof.Machine

/-! ## Loads and arithmetic (O13–O17, O19) -/

namespace Sys2Proof.Machine

theorem regsBut_singleton (s : State) (x : Reg) (v : Byte) : RegsBut [x] s (s.setReg x v) :=
  regsBut_setReg (List.mem_singleton_self x) s v

/-- Settles O13: both are one write of VX. -/
theorem immediateLoadAndAddWriteVx : Obligations.ImmediateLoadAndAddWriteVx := by
  refine fun x kk s => ⟨⟨_, rfl, State.setReg_reg_self s x kk, regsBut_singleton s x _, frame_setReg s x _⟩,
    ⟨_, rfl, ?_, regsBut_singleton s x _, frame_setReg s x _⟩⟩
  rw [State.setReg_reg_self, BitVec.toNat_add]

/-- Settles O14: each is one write of VX, of VY or of the bitwise result. -/
theorem copyAndLogicWriteOnlyVx : Obligations.CopyAndLogicWriteOnlyVx := by
  refine fun x y s => ⟨⟨_, rfl, State.setReg_reg_self s x _, regsBut_singleton s x _, frame_setReg s x _⟩,
    ⟨_, rfl, regsBut_singleton s x _, frame_setReg s x _, fun b => ?_⟩,
    ⟨_, rfl, regsBut_singleton s x _, frame_setReg s x _, fun b => ?_⟩,
    ⟨_, rfl, regsBut_singleton s x _, frame_setReg s x _, fun b => ?_⟩⟩
  · rw [State.setReg_reg_self, BitVec.getLsbD_or]
  · rw [State.setReg_reg_self, BitVec.getLsbD_and]
  · rw [State.setReg_reg_self, BitVec.getLsbD_xor]

/-! ### Results with a flag (R180) -/

section Flagged
variable (s : State) (x : Reg) (v : Byte) (c : Bool)

/-- The state after a flagged result: VX, then VF, which the flag wins when X is F (R180; D10). -/
def flagged : State := (s.setReg x v).setReg VF (Flags.value c)

theorem flagged_reg (hx : x ≠ VF) : (flagged s x v c).reg x = v := by
  rw [flagged, State.setReg_reg_of_ne _ _ _ _ hx, State.setReg_reg_self]

theorem flagged_VF : (flagged s x v c).reg VF = Flags.value c := State.setReg_reg_self _ _ _

theorem regsBut_flagged : RegsBut [x, VF] s (flagged s x v c) := regsBut_writeFlagged s x v _

theorem frame_flagged : Frame [.regs] s (flagged s x v c) := by
  simp [frame_iff, flagged]

/-- A flagged result meets what is claimed of VX and VF when its value and its flag do. -/
theorem flagged_spec {i : Instr} {P Q : Byte → Prop} (hi : exec i s = .next (flagged s x v c)) (hP : P v)
    (hQ : Q (Flags.value c)) : ∃ t, exec i s = .next t ∧ (x ≠ VF → P (t.reg x)) ∧ Q (t.reg VF) ∧
      RegsBut [x, VF] s t ∧ Frame [.regs] s t :=
  ⟨_, hi, fun hx => (flagged_reg s x v c hx).symm ▸ hP, (flagged_VF s x v c).symm ▸ hQ, regsBut_flagged s x v c,
    frame_flagged s x v c⟩

end Flagged

theorem value_eq_ite {c : Bool} {p : Prop} [Decidable p] (h : c = true ↔ p) :
    Flags.value c = if p then 1 else 0 := by
  by_cases hp : p
  · rw [if_pos hp, h.2 hp]; rfl
  · rw [if_neg hp, Bool.eq_false_iff.2 (mt h.1 hp)]; rfl

theorem notBorrow_iff (strict : Bool) (a b : Byte) : Flags.notBorrow strict a b = true ↔
    (strict = true ∧ a.toNat > b.toNat) ∨ (¬ strict = true ∧ a.toNat ≥ b.toNat) := by
  cases strict <;> simp [Flags.notBorrow]

theorem sub_toNat (a b : Byte) : (a - b).toNat = (a.toNat + 256 - b.toNat) % 256 := by
  have := b.isLt
  rw [BitVec.toNat_sub]
  omega

/-- Settles O15: the carry is the exact sum above 255. -/
theorem addSetsCarry : Obligations.AddSetsCarry := fun x _ s =>
  flagged_spec s x _ _ (P := fun v => v.toNat = _) (Q := fun f => f = _) rfl (BitVec.toNat_add _ _)
    (value_eq_ite decide_eq_true_iff)

/-- Settles O16: the two subtractions differ in their operands' order alone. -/
theorem subtractSetsNotBorrow : Obligations.SubtractSetsNotBorrow := fun x _ s =>
  ⟨flagged_spec s x _ _ (P := fun v => v.toNat = _) (Q := fun f => f = _) rfl (sub_toNat _ _)
      (value_eq_ite (notBorrow_iff _ _ _)),
    flagged_spec s x _ _ (P := fun v => v.toNat = _) (Q := fun f => f = _) rfl (sub_toNat _ _)
      (value_eq_ite (notBorrow_iff _ _ _))⟩

/-! ### Shifts (R187, R189) -/

theorem value_toNat (b : Bool) : (Flags.value b).toNat = b.toNat := by cases b <;> rfl

/-- A bit written as a flag is that binary digit. -/
theorem value_getLsbD_toNat (v : Byte) (j : Nat) : (Flags.value (v.getLsbD j)).toNat = v.toNat / 2 ^ j % 2 :=
  (value_toNat _).trans (Nat.toNat_testBit v.toNat j)

theorem outRight_toNat (v : Byte) : (Flags.value (Flags.outRight v)).toNat = v.toNat % 2 := by
  rw [Flags.outRight, value_getLsbD_toNat, pow_zero, Nat.div_one]

theorem outLeft_toNat (v : Byte) : (Flags.value (Flags.outLeft v)).toNat = v.toNat / 128 := by
  have := v.isLt
  rw [Flags.outLeft, value_getLsbD_toNat]
  omega

theorem shiftRight_one_toNat (v : Byte) : (v >>> 1).toNat = v.toNat / 2 := by
  rw [BitVec.toNat_ushiftRight, Nat.shiftRight_eq_div_pow, pow_one]

theorem shiftLeft_one_toNat (v : Byte) : (v <<< 1).toNat = v.toNat * 2 % 256 := by
  rw [BitVec.toNat_shiftLeft, Nat.shiftLeft_eq, pow_one]

/-- Settles O17: the value shifted is the operand that the configuration selects. -/
theorem shiftsMoveOneBitIntoVf : Obligations.ShiftsMoveOneBitIntoVf := fun x _ s =>
  ⟨flagged_spec s x _ _ (P := fun v => v.toNat = _) (Q := fun f => f.toNat = _) rfl (shiftRight_one_toNat _)
      (outRight_toNat _),
    flagged_spec s x _ _ (P := fun v => v.toNat = _) (Q := fun f => f.toNat = _) rfl (shiftLeft_one_toNat _)
      (outLeft_toNat _)⟩

/-! ### The index register's sum (R211) -/

theorem indexSum_toNat (s : State) (x : Reg) :
    (indexSum s x).toNat = (s.I.toNat + (s.reg x).toNat) % 65536 := by
  rw [indexSum, BitVec.toNat_add, BitVec.toNat_setWidth_of_le (by decide)]

theorem overflowRegs_VF (s : State) (x : Reg) : (overflowRegs s x)[VF] =
    if s.cfg.indexOverflowFlag = true ∧ 4096 ≤ (indexSum s x).toNat then 1 else s.reg VF := by
  have hov : Flags.indexOverflow s.cfg.indexOverflowFlag (indexSum s x) = true ↔
      s.cfg.indexOverflowFlag = true ∧ 4096 ≤ (indexSum s x).toNat := by simp [Flags.indexOverflow]
  rw [overflowRegs]
  simp only [hov]
  split_ifs
  · exact State.setReg_reg_self s VF 1
  · rfl

/-- Settles O19: I takes the 16-bit sum, and the registers are as before but for an overflow's 1 in VF. -/
theorem addIndexMayRaiseVf : Obligations.AddIndexMayRaiseVf := by
  intro x s
  refine ⟨_, exec_addI x s, indexSum_toNat s x, regsBut_overflowRegs s x, by simp [frame_iff], ?_⟩
  rw [← indexSum_toNat]
  exact overflowRegs_VF s x

end Sys2Proof.Machine

/-! ## Keypad and timers (O30, O31, O32) -/

namespace Sys2Proof.Machine

/-- Settles O30: the condition is the key's bit, or its absence. -/
theorem keySkipsTestTheKeyInVx : Obligations.KeySkipsTestTheKeyInVx := fun _ _ s hk =>
  ⟨⟨_, skipOnKey_of_key hk, frame_skipIf s _, skipIf_pc_toNat s beq_iff_eq⟩,
    ⟨_, skipOnKey_of_key hk, frame_skipIf s _, skipIf_pc_toNat s beq_iff_eq⟩⟩

/-- Settles O31: there is no key above 15. -/
theorem keyNumberAboveFTakesTheFault : Obligations.KeyNumberAboveFTakesTheFault := fun _ s hk =>
  ⟨⟨_, skipOnKey_of_noKey hk, takesFault_faulted _ _ _ s⟩, ⟨_, skipOnKey_of_noKey hk, takesFault_faulted _ _ _ s⟩⟩

/-- Settles O32: the words are the packed forms, and each execute phase is one write. -/
theorem timerCopies : Obligations.TimerCopies := fun x s =>
  ⟨decode_encode (.ldVxDt x), decode_encode (.ldDtVx x), decode_encode (.ldStVx x),
    ⟨_, rfl, State.setReg_reg_self s x _, regsBut_singleton s x _, frame_setReg s x _⟩,
    ⟨_, rfl, rfl, by simp [frame_iff]⟩, ⟨_, rfl, rfl, by simp [frame_iff], decide_eq_true_iff⟩⟩

end Sys2Proof.Machine
